-- ==== Sys2Proof/Word.lean ====
section
/-! DEFINITION. The word type, addresses and text, with their plainest conversions
(spec/00_scope.md R8 to R10; spec/10_state.md R21; spec/30_encoding.md R61). -/

namespace Sys2Proof

/-- `Word32` of R9: a 32-bit vector, read as two's complement where it is read as a number. -/
abbrev Word := BitVec 32

/-- The index of a general register, 0 to 31 (R21). -/
abbrev RegIdx := Fin 32

/-- A program line, or a token of one (R41, R61).
DESIGN CHOICE (assumption log 5, safe): text is a list of Unicode characters. -/
abbrev Text := List Char

/-- `sint(w)` of R9. -/
abbrev Word.sint (w : Word) : Int := BitVec.toInt w

/-- `word(v)` of R9: the low 32 bits of the integer `v`. -/
abbrev Word.ofInteger (v : Int) : Word := BitVec.ofInt 32 v

/-- `addr(w)` of R10: the signed address a word names. An address is an integer (R10); a slot stands at an
integer, not at a byte (R46). -/
abbrev Word.addr (w : Word) : Int := BitVec.toInt w

/-- `v` lies in `[-2^31, 2^31 - 1]`, the 32-bit signed integers (R9, R10, R66). -/
abbrev InRange (v : Int) : Prop := -2147483648 ≤ v ∧ v ≤ 2147483647

end Sys2Proof
end

