-- ==== Sys2Proof/Syntax.lean ====
section
/-! DEFINITION. The instructions, whole: the ten rows of spec/opcode_table.json (spec/30_encoding.md R62,
R63), what the decoder can answer (R68), why an operand is bad (spec/60_exceptions.md R173), and what the
instruction encoder can answer (R71). -/

namespace Sys2Proof

/-- The ten supported mnemonics (R62). -/
inductive Mnemonic where
  | add | sub | and | or | addi | lw | sw | beq | bne | jal
deriving DecidableEq, Repr

/-- What an operand position holds: a register or an immediate (R63). -/
inductive Role where
  | register | immediate
deriving DecidableEq, Repr

/-- The operand forms, position by position (the table of R63); the arity is the length. -/
def Mnemonic.roles : Mnemonic → List Role
  | .add | .sub | .and | .or => [.register, .register, .register]
  | .addi => [.register, .register, .immediate]
  | .lw => [.register, .immediate, .register]
  | .sw => [.register, .immediate, .register]
  | .beq | .bne => [.register, .register, .immediate]
  | .jal => [.register, .immediate]

/-- A decoded instruction, one constructor for each row of spec/opcode_table.json, its operands in the
order the line writes them (R63). The immediate is the full 32-bit word of R66. -/
inductive Instr where
  | add (rd rs1 rs2 : RegIdx)
  | sub (rd rs1 rs2 : RegIdx)
  | and (rd rs1 rs2 : RegIdx)
  | or (rd rs1 rs2 : RegIdx)
  | addi (rd rs1 : RegIdx) (imm : Word)
  | lw (rd : RegIdx) (imm : Word) (rs1 : RegIdx)
  | sw (rs2 : RegIdx) (imm : Word) (rs1 : RegIdx)
  | beq (rs1 rs2 : RegIdx) (imm : Word)
  | bne (rs1 rs2 : RegIdx) (imm : Word)
  | jal (rd : RegIdx) (imm : Word)
deriving DecidableEq, Repr

/-- Why an operand is bad: the reasons of R173. -/
inductive FaultReason where
  /-- fewer operand tokens than the form's arity (R65) -/
  | missingOperand
  /-- a token that is no decimal integer token (R60, R65) -/
  | notDecimal
  /-- a value outside `[-2^31, 2^31 - 1]` (R66) -/
  | intOutOfRange
  /-- a register operand outside 0 to 31 (R64) -/
  | registerOutOfRange
deriving DecidableEq, Repr

/-- What `decode` answers (R68). `unknown` is a line whose mnemonic is not one of the ten: it is no row
of the opcode table, so no constructor of `Instr` (DESIGN CHOICE, assumption log 18, safe). -/
inductive Decoded where
  | unknown
  | instr (i : Instr)
  | invalid (reason : FaultReason) (position : Nat)
deriving DecidableEq, Repr

/-- The `enc` field of a code slot: a 32-bit word or no bits at all (R41, R71). -/
inductive Encoding where
  | word (w : Word)
  | empty
deriving DecidableEq, Repr, Inhabited

/-- What the instruction encoder answers for a line: a word, EMPTY or UNSPEC (R71, R78). -/
inductive EncodeOutcome where
  | word (w : Word)
  | empty
  | unspec
deriving DecidableEq, Repr

/-- An instruction as a line writes it: a supported mnemonic and operand integers, not yet checked. -/
structure Written where
  mnemonic : Mnemonic
  operands : List Int
deriving DecidableEq, Repr

end Sys2Proof
end

