-- ==== Sys2Proof/WellFormed.lean ====
section
/-! DEFINITION. When an instruction as written is well formed: enough operands for its form, each an
integer the form admits at that position (spec/30_encoding.md R63 to R67).

The operands of `Instr` carry these bounds in their types (`Fin 32`, `BitVec 32`), so every `Instr` is
well formed (DESIGN CHOICE, assumption log 15, safe); `Written` is where an ill-formed one can stand. -/

namespace Sys2Proof

/-- A register operand lies in 0 to 31 (R64). -/
def wfRegister (v : Int) : Bool := decide (0 ≤ v) && decide (v ≤ 31)

/-- Every operand lies in `[-2^31, 2^31 - 1]` (R66, its last sentence). -/
def wfInteger (v : Int) : Bool := decide (InRange v)

/-- One operand against the role of its position. -/
def wfOperand : Role → Int → Bool
  | .register, v => wfInteger v && wfRegister v
  | .immediate, v => wfInteger v

/-- The operands against a form, position by position: none missing (R65), extra ones ignored (R67). -/
def wfOperands : List Role → List Int → Bool
  | [], _ => true
  | _ :: _, [] => false
  | r :: rs, v :: vs => wfOperand r v && wfOperands rs vs

/-- A written instruction is well formed: exactly these lines execute once their tokens are decimal. -/
def Written.wf (w : Written) : Bool := wfOperands w.mnemonic.roles w.operands

end Sys2Proof
end

