-- ==== Sys2Proof/Decode.lean ====
section
/-! DEFINITION. From a program line to an instruction and back: the decoder (spec/30_encoding.md R60 to R70),
the canonical line of an instruction, and the hardware's own instruction encoder (R71 to R79). -/

namespace Sys2Proof

/-- White space: space, TAB, LF, VT, FF, CR and nothing else (R61). -/
def isWhitespace (c : Char) : Bool := [0x20, 0x09, 0x0A, 0x0B, 0x0C, 0x0D].contains c.toNat

/-- A token put before others; the empty run is no token (R61). -/
def consToken (t : Text) (ts : List Text) : List Text :=
  match t with
  | [] => ts
  | c :: cs => (c :: cs) :: ts

/-- The run of non-white-space characters a text begins with, and the tokens after it. -/
def splitTokens : Text → Text × List Text
  | [] => ([], [])
  | c :: cs =>
    let r := splitTokens cs
    if isWhitespace c then ([], consToken r.1 r.2) else (c :: r.1, r.2)

/-- `tokens(s)` of R61: the maximal runs of non-white-space characters, left to right. -/
def tokens (s : Text) : List Text := consToken (splitTokens s).1 (splitTokens s).2

/-- The first token that selects each mnemonic (R62; "select" in spec/opcode_table.json). -/
def Mnemonic.text : Mnemonic → Text
  | .add => ['A', 'D', 'D']
  | .sub => ['S', 'U', 'B']
  | .and => ['A', 'N', 'D']
  | .or => ['O', 'R']
  | .addi => ['A', 'D', 'D', 'I']
  | .lw => ['L', 'W']
  | .sw => ['S', 'W']
  | .beq => ['B', 'E', 'Q']
  | .bne => ['B', 'N', 'E']
  | .jal => ['J', 'A', 'L']

/-- The supported mnemonics, each once (R62). -/
def Mnemonic.all : List Mnemonic := [.add, .sub, .and, .or, .addi, .lw, .sw, .beq, .bne, .jal]

/-- The supported mnemonic a token is, compared character for character and case-sensitively (R62). -/
def mnemonicOf (t : Text) : Option Mnemonic := Mnemonic.all.find? fun m => decide (m.text = t)

/-- The value of an ASCII digit (R60). -/
def digitValue (c : Char) : Option Nat :=
  if 48 ≤ c.toNat ∧ c.toNat ≤ 57 then some (c.toNat - 48) else none

/-- The base-10 value of digits read after the value `acc`; none when a character is no digit (R60). -/
def digitsValue (acc : Nat) : Text → Option Nat
  | [] => some acc
  | c :: cs =>
    match digitValue c with
    | none => none
    | some d => digitsValue (10 * acc + d) cs

/-- One or more digits, leading zeros allowed (R60). -/
def naturalOf (t : Text) : Option Nat := if t = [] then none else digitsValue 0 t

/-- `int(t)` of R60, none when `t` is no decimal integer token: an optional single sign, then digits. -/
def integerOf : Text → Option Int
  | '+' :: ds => Option.map Int.ofNat (naturalOf ds)
  | '-' :: ds => Option.map (fun n => -Int.ofNat n) (naturalOf ds)
  | ds => Option.map Int.ofNat (naturalOf ds)

/-- Operand token `k` (1-based) as an integer in range, or why not: the first three checks of R68. -/
def readInteger (ops : List Text) (k : Nat) : Except (FaultReason × Nat) Int :=
  match ops[k - 1]? with
  | none => .error (.missingOperand, k)
  | some t =>
    match integerOf t with
    | none => .error (.notDecimal, k)
    | some v => if InRange v then .ok v else .error (.intOutOfRange, k)

/-- Operand token `k` as a register index (R64, and the register check of R68). -/
def readRegister (ops : List Text) (k : Nat) : Except (FaultReason × Nat) RegIdx :=
  match readInteger ops k with
  | .error e => .error e
  | .ok v => if h : 0 ≤ v ∧ v ≤ 31 then .ok ⟨v.toNat, by omega⟩ else .error (.registerOutOfRange, k)

/-- Operand token `k` as a full 32-bit immediate (R66). -/
def readImmediate (ops : List Text) (k : Nat) : Except (FaultReason × Nat) Word :=
  match readInteger ops k with
  | .error e => .error e
  | .ok v => .ok (Word.ofInteger v)

/-- The operands of a mnemonic, read left to right in the order of its form (R63), the leftmost bad one
reported (R70). -/
def decodeOperands (m : Mnemonic) (ops : List Text) : Except (FaultReason × Nat) Instr :=
  match m with
  | .add => do return .add (← readRegister ops 1) (← readRegister ops 2) (← readRegister ops 3)
  | .sub => do return .sub (← readRegister ops 1) (← readRegister ops 2) (← readRegister ops 3)
  | .and => do return .and (← readRegister ops 1) (← readRegister ops 2) (← readRegister ops 3)
  | .or => do return .or (← readRegister ops 1) (← readRegister ops 2) (← readRegister ops 3)
  | .addi => do return .addi (← readRegister ops 1) (← readRegister ops 2) (← readImmediate ops 3)
  | .lw => do return .lw (← readRegister ops 1) (← readImmediate ops 2) (← readRegister ops 3)
  | .sw => do return .sw (← readRegister ops 1) (← readImmediate ops 2) (← readRegister ops 3)
  | .beq => do return .beq (← readRegister ops 1) (← readRegister ops 2) (← readImmediate ops 3)
  | .bne => do return .bne (← readRegister ops 1) (← readRegister ops 2) (← readImmediate ops 3)
  | .jal => do return .jal (← readRegister ops 1) (← readImmediate ops 2)

/-- The decoder (R68): total on every text, the first token alone selecting (R62), the operands of an
unknown mnemonic not read, a bad operand reported by reason and position. -/
def decode (src : Text) : Decoded :=
  match tokens src with
  | [] => .unknown
  | t :: ops =>
    match mnemonicOf t with
    | none => .unknown
    | some m =>
      match decodeOperands m ops with
      | .ok i => .instr i
      | .error (reason, k) => .invalid reason k

/-! ## The canonical line of an instruction

DESIGN CHOICE (assumption log 13, safe): one space between tokens, no plus sign, no leading zero. The spec
gives many lines for one instruction (R60, R61, R67); this picks one. -/

/-- The decimal digits of `n`, put before `acc`; at most `fuel` of them. -/
def showDigits : Nat → Nat → Text → Text
  | 0, _, acc => acc
  | fuel + 1, n, acc =>
    if n < 10 then Char.ofNat (48 + n) :: acc
    else showDigits fuel (n / 10) (Char.ofNat (48 + n % 10) :: acc)

/-- An integer of at most ten digits as a decimal integer token (R60); every operand in range is one. -/
def showInteger (v : Int) : Text :=
  if v < 0 then '-' :: showDigits 10 v.natAbs [] else showDigits 10 v.natAbs []

/-- The operand tokens, each after one space. -/
def showOperands : List Int → Text
  | [] => []
  | v :: vs => ' ' :: (showInteger v ++ showOperands vs)

/-- A written instruction as a line: `MNEMONIC op1 op2 [op3]` (R83). -/
def Written.line (w : Written) : Text := w.mnemonic.text ++ showOperands w.operands

/-- An instruction as its form writes it: the operand order of R63. -/
def Instr.written : Instr → Written
  | .add rd rs1 rs2 => ⟨.add, [rd.val, rs1.val, rs2.val]⟩
  | .sub rd rs1 rs2 => ⟨.sub, [rd.val, rs1.val, rs2.val]⟩
  | .and rd rs1 rs2 => ⟨.and, [rd.val, rs1.val, rs2.val]⟩
  | .or rd rs1 rs2 => ⟨.or, [rd.val, rs1.val, rs2.val]⟩
  | .addi rd rs1 imm => ⟨.addi, [rd.val, rs1.val, imm.sint]⟩
  | .lw rd imm rs1 => ⟨.lw, [rd.val, imm.sint, rs1.val]⟩
  | .sw rs2 imm rs1 => ⟨.sw, [rs2.val, imm.sint, rs1.val]⟩
  | .beq rs1 rs2 imm => ⟨.beq, [rs1.val, rs2.val, imm.sint]⟩
  | .bne rs1 rs2 imm => ⟨.bne, [rs1.val, rs2.val, imm.sint]⟩
  | .jal rd imm => ⟨.jal, [rd.val, imm.sint]⟩

/-- The canonical program line of an instruction: what the engine decodes is text (R69), so this is the
encoding that `decode` reads back. -/
def encode (i : Instr) : Text := i.written.line

/-! ## The hardware's instruction encoder -/

/-- The one binary format: imm 31:20, rs1 19:15, funct3 14:12 = 000, rd 11:7, opcode 6:0 = 0010011, each
field the low bits of its operand (R72, R73). -/
def addiWord (imm rs1 rd : Int) : Word :=
  BitVec.ofInt 12 imm ++ BitVec.ofInt 5 rs1 ++ 0b000#3 ++ BitVec.ofInt 5 rd ++ 0b0010011#7

/-- The instruction encoder (R71): ADDI lines whose operands it can read give a word (R74), without a
register-range check (R75); other ADDI lines give UNSPEC (R78); every other line gives EMPTY (R76, R77). -/
def encodeLine (src : Text) : EncodeOutcome :=
  match tokens src with
  | [] => .empty
  | t :: ops =>
    if t = Mnemonic.addi.text then
      match readInteger ops 1, readInteger ops 2, readInteger ops 3 with
      | .ok rd, .ok rs1, .ok imm => .word (addiWord imm rs1 rd)
      | _, _, _ => .unspec
    else .empty

/-- What a code slot keeps of an outcome: UNSPEC stands for any outcome, so `draw` takes its place
(R78, assumption log 3). -/
def EncodeOutcome.stored (draw : Encoding) : EncodeOutcome → Encoding
  | .word w => .word w
  | .empty => .empty
  | .unspec => draw

/-! ## Words of the opcode table

The hardware decodes no word (R69, R80). DESIGN CHOICE (assumption log 12): for the pipeline's own use, a word
of ADDI's pattern is read as the canonical ADDI line whose encoder word it is, and the decoder reads that
line; a word of no pattern is no instruction's. -/

/-- The instruction whose encoder word is `w` and whose immediate fits 12 bits (R72, R79), if any. -/
def instrOfWord (w : Word) : Option Instr :=
  if w &&& 0x0000707F = 0x00000013 then
    some (.addi (w.extractLsb' 7 5).toFin (w.extractLsb' 15 5).toFin ((w.extractLsb' 20 12).signExtend 32))
  else none

/-- The first word of an instruction of `nbits` bits numbered as spec/opcode_table.json numbers them. -/
def tableWord (nbits w : Nat) : Word := BitVec.ofNat 32 (w % 2 ^ nbits)

/-- The line a code slot holds for a word of the opcode table, if some line encodes to it. -/
def lineOfTableWord (nbits w : Nat) : Option Text := (instrOfWord (tableWord nbits w)).map encode

/-- The pipeline's entry: the instruction the decoder reads for a word of the opcode table. -/
def decodeTableWord (nbits w : Nat) : Option Instr :=
  match lineOfTableWord nbits w with
  | none => none
  | some line =>
    match decode line with
    | .instr i => some i
    | .unknown => none
    | .invalid _ _ => none

end Sys2Proof
end

