-- ==== Sys2Proof/Config.lean ====
section
/-! DEFINITION. The implementation parameters of spec/00_scope.md R6, and the free values: what the spec
leaves open and names a draw (spec/10_state.md R31; spec/30_encoding.md R78). -/

namespace Sys2Proof

/-- Consecutive program lines are 4 addresses apart (R6, R193). -/
abbrev Config.codeStride : Int := 4

/-- The sequential PC increment (R6, R95). -/
abbrev Config.pcIncrement : Word := 4

/-- The halt sentinel: the PC value `-1`, that is `0xFFFFFFFF` (R6, R92). -/
abbrev Config.haltSentinel : Word := 0xFFFFFFFF

/-- FREE VALUE (R31, assumption log 2, safe): the PC a host reset leaves, one for each draw.
It has no body, so nothing can be proved of its value. -/
opaque Config.pcAfterReset : Nat → Word

/-- FREE VALUE (R78, assumption log 3, safe): what the encoder leaves in a code slot for a line whose
outcome is UNSPEC, any word or EMPTY, one for each draw. It has no body. -/
opaque Config.unspecEncoding : Nat → Encoding

end Sys2Proof
end

