-- ==== Sys2Proof/Machine/State.lean ====
section
/-! DEFINITION. The whole state of the machine (spec/10_state.md R20 to R31; spec/20_memory.md R40, R41), why
it may stop, and the state after reset. Plain data throughout. -/

namespace Sys2Proof.Machine

/-- What a data slot holds: an integer of any size, or content that is no integer (R41, R131). -/
inductive Content where
  | num (v : Int)
  | malformed
deriving DecidableEq, Repr

/-- A slot: code (the encoder's word beside the program line) or data (R41). `NONE` is no slot. -/
inductive Slot where
  | code (enc : Encoding) (src : Text)
  | data (c : Content)
deriving DecidableEq, Repr

/-- The address space `M` (R40): the slots by address. An unlisted address holds `NONE` (R31, R41).
It is a list of slots, not of bytes, since the hardware has no bytes (R46; DEDUCED, assumption log 4, safe). -/
abbrev Memory := List (Int × Slot)

/-- The canonical form: addresses strictly rising and in range; `NONE` is never listed, having no `Slot`. -/
abbrev Memory.wf (m : Memory) : Prop :=
  m.Pairwise (fun p q => p.1 < q.1) ∧ ∀ p ∈ m, InRange p.1

/-- The run state (R25). -/
inductive RunState where
  | halted | running | faulted
deriving DecidableEq, Repr

/-- The kinds of diagnostic (R26). -/
inductive DiagKind where
  | noSlot | malformed
deriving DecidableEq, Repr

/-- A record of the diagnostics log: a load that found no usable data (R26). -/
structure Diagnostic where
  kind : DiagKind
  addr : Int
deriving DecidableEq, Repr

/-- The fault record `(reason, k, a, src)` (R27, R172). -/
structure FaultRecord where
  reason : FaultReason
  position : Nat
  addr : Int
  src : Text
deriving DecidableEq, Repr

/-- The state `S = (X, pc, M, run, diag, fault)` of R20, and the model's own counter of free values. -/
structure State where
  /-- `X`: x0 to x31 (R21). Read and written through `readReg` and `writeReg` only. -/
  regs : Vector Word 32
  /-- the program counter (R24) -/
  pc : Word
  /-- the address space (R40) -/
  mem : Memory
  /-- the run state (R25) -/
  run : RunState
  /-- the diagnostics log, oldest first (R26) -/
  diag : List Diagnostic
  /-- the fault record (R27) -/
  fault : Option FaultRecord
  /-- the MODEL's own field: how many free values have been drawn (assumption log 3); no step reads it -/
  draws : Nat
deriving DecidableEq, Repr

/-- The effect of one instruction, each part possibly absent (R94). It lives within one step. -/
structure Effect where
  reg : Option (RegIdx × Word) := none
  mem : Option (Int × Content) := none
  diag : Option Diagnostic := none
  redirect : Option Word := none
deriving DecidableEq, Repr

/-- Why a machine stops with a fault. The spec's own fault, `InvalidOperand`, is not here: it is a next state
whose run state is FAULTED (R172, assumption log 7). -/
inductive Fault where
  /-- Raised by `step` in a state that is FAULTED already: there is no step until the host resets (R90,
  R172). Safe: no state follows (assumption log 6). -/
  | faulted
deriving DecidableEq, Repr

/-- Why an operation is refused. -/
inductive Refusal where
  /-- Raised by a refused arm of `exec`: an instruction without a meaning yet. Safe. No arm uses it. -/
  | notModelled (mnemonic : String)
  /-- Raised by `step` in HALTED: steps happen only in RUNNING, and the host has not called run (R90). Safe
  (assumption log 6). -/
  | halted
  /-- Raised by a host operation that is admitted only while not RUNNING (R193 to R195; reset by R198
  and D18, assumption log 8), and by run itself (assumption log 9). Safe. -/
  | runInProgress
  /-- Raised by loadInstructions: a line with no non-white-space character (R193). Safe. -/
  | blankLine
  /-- Raised by loadInstructions, loadData and run: an address outside `[-2^31, 2^31 - 1]` (R193, R194, R98).
  Safe. -/
  | addressOutOfRange
  /-- Raised by loadData: two entries name one address (R194). Safe. -/
  | duplicateAddress
deriving DecidableEq, Repr

/-- The state after reset, for a PC and a counter of free values left open (R31, R190). -/
def State.resetAt (pc : Word) (draws : Nat) : State where
  regs := Vector.replicate 32 0
  pc := pc
  mem := []
  run := .halted
  diag := []
  fault := none
  draws := draws

/-- The machine right after reset (R31).
DESIGN CHOICE (assumption log 1, unsafe): the spec leaves the PC unspecified, and this names 0.
DESIGN CHOICE (assumption log 3, safe): no free value has been drawn. -/
def State.reset : State := State.resetAt 0 0

end Sys2Proof.Machine
end

