-- ==== Sys2Proof/Machine/Ops.lean ====
section
/-! DEFINITION. The named operations over registers, memory, PC, run state, diagnostics and fault record
(spec/00_scope.md R11), the commit of an instruction's effect (spec/40_engine.md R94, R95), the halt, and
taking the one fault the spec describes (spec/60_exceptions.md R172).

There is no return from a fault to write beside it: no trap-return instruction exists (R175), and only a host
reset leaves FAULTED (R25). -/

namespace Sys2Proof.Machine

/-- `MemRead(a, 1)`: the content of `a`, `none` for `NONE`; it changes nothing (R42). -/
def Memory.read : Memory → Int → Option Slot
  | [], _ => none
  | (b, x) :: m, a => if a = b then some x else Memory.read m a

/-- The content of `a` becomes the slot `x`, whatever it was, and no other address changes (R44, R193). -/
def Memory.write : Memory → Int → Slot → Memory
  | [], a, x => [(a, x)]
  | (b, y) :: m, a, x =>
    if a < b then (a, x) :: (b, y) :: m
    else if a = b then (a, x) :: m
    else (b, y) :: Memory.write m a x

namespace State

/-- `x[i]`: x0 reads as zero (R21). -/
def readReg (s : State) (i : RegIdx) : Word := if i = 0 then 0 else s.regs[i]

/-- `x[i] <- v`: a write to x0 has no effect (R22). -/
def writeReg (s : State) (i : RegIdx) (v : Word) : State :=
  if i = 0 then s else { s with regs := s.regs.set i v }

/-- `pc <- target` (R11). -/
def setPc (s : State) (target : Word) : State := { s with pc := target }

/-- `M` becomes `m`. -/
def setMem (s : State) (m : Memory) : State := { s with mem := m }

/-- The run state becomes `r` (R25). -/
def setRun (s : State) (r : RunState) : State := { s with run := r }

/-- `emit Diag(kind, a)`: the record is appended (R26). -/
def emit (s : State) (d : Diagnostic) : State := { s with diag := s.diag ++ [d] }

/-- The fault record becomes `f` (R27). -/
def setFault (s : State) (f : Option FaultRecord) : State := { s with fault := f }

/-- `MemRead(a, 1)` in a state (R42). -/
def readMem (s : State) (a : Int) : Option Slot := s.mem.read a

/-- `MemWrite(a, 1, DATA(c))` (R44). -/
def writeData (s : State) (a : Int) (c : Content) : State := s.setMem (s.mem.write a (.data c))

/-- The register part of an effect, through R22. -/
def commitReg (s : State) : Option (RegIdx × Word) → State
  | none => s
  | some (rd, v) => s.writeReg rd v

/-- The memory part of an effect, through R44. -/
def commitMem (s : State) : Option (Int × Content) → State
  | none => s
  | some (a, c) => s.writeData a c

/-- The diagnostic part of an effect (R26). -/
def commitDiag (s : State) : Option Diagnostic → State
  | none => s
  | some d => s.emit d

/-- PC control (R95): the redirect target, else `pc + 4`; the instruction decides, not the PC's value. -/
def commitPc (s : State) : Option Word → State
  | none => s.setPc (s.pc + Config.pcIncrement)
  | some t => s.setPc t

/-- The commit of an effect (R94): register, memory, diagnostic and PC; nothing else changes. -/
def commit (s : State) (e : Effect) : State :=
  (((s.commitReg e.reg).commitMem e.mem).commitDiag e.diag).commitPc e.redirect

/-- The end of a run (R92): HALTED, and nothing else changes. -/
def halt (s : State) : State := s.setRun .halted

/-- Taking the fault `InvalidOperand` (R172): FAULTED, the record `(reason, k, addr(pc), src)`, and nothing
else: the PC still names the faulting instruction. -/
def raiseInvalidOperand (s : State) (reason : FaultReason) (k : Nat) (src : Text) : State :=
  (s.setRun .faulted).setFault (some ⟨reason, k, Word.addr s.pc, src⟩)

end State

end Sys2Proof.Machine
end

