-- ==== Sys2Proof/Machine/Operands.lean ====
section
/-! DEFINITION. What an instruction's operands name: the effective address and the value a load finds
(spec/42_load_store.md R130, R131), and the target of a branch or jump (spec/43_branch_jump.md R154). A register
operand is `State.readReg` or `State.writeReg`; an immediate is its own 32-bit word (spec/30_encoding.md R66). -/

namespace Sys2Proof.Machine

/-- The one addressing mode (R130): base plus immediate modulo `2^32`, read as a signed address. -/
def effectiveAddress (s : State) (rs1 : RegIdx) (imm : Word) : Int := Word.addr (s.readReg rs1 + imm)

/-- The value and the diagnostic a load takes from the content of `ea` (the table of R131). -/
def loadValue (ea : Int) : Option Slot → Word × Option Diagnostic
  | some (.data (.num v)) =>
    if InRange v then (Word.ofInteger v, none) else (0, some ⟨.malformed, ea⟩)
  | some (.data .malformed) => (0, some ⟨.malformed, ea⟩)
  | some (.code _ _) => (0, some ⟨.malformed, ea⟩)
  | none => (0, some ⟨.noSlot, ea⟩)

/-- The target of a branch or jump (R154): the instruction's own address plus the immediate, modulo `2^32`. -/
def branchTarget (s : State) (imm : Word) : Word := s.pc + imm

end Sys2Proof.Machine
end

