-- ==== Sys2Proof/Machine/Flags.lean ====
section
/-! DEFINITION. The hardware has no flags and no condition codes, and its ALU gives none (spec/10_state.md R28;
spec/41_alu.md R110). In their place stands the comparator of the branch controller (spec/43_branch_jump.md R150). -/

namespace Sys2Proof.Machine

/-- `eq(p, q)`: equality on all 32 bits (R150). -/
def wordsEqual (p q : Word) : Bool := p == q

end Sys2Proof.Machine
end

