-- ==== Sys2Proof/Machine/Alu.lean ====
section
/-! DEFINITION. The ALU and its five instructions, ADD, SUB, AND, OR, ADDI (spec/41_alu.md R110 to R116). -/

namespace Sys2Proof.Machine

/-- The operations of the ALU (R110). -/
inductive AluOp where
  | add | sub | and | or
deriving DecidableEq, Repr

/-- `ALU(op, p, q)` (R110, R116): modulo `2^32`, or bit by bit; no flag, no overflow indication. -/
def alu : AluOp → Word → Word → Word
  | .add, p, q => p + q
  | .sub, p, q => p - q
  | .and, p, q => p &&& q
  | .or, p, q => p ||| q

/-- The shape of the five: `x[rd] <- ALU(op, p, q)`, no redirect. -/
def aluEffect (op : AluOp) (rd : RegIdx) (p q : Word) : Effect := { reg := some (rd, alu op p q) }

/-- ADD (R111). -/
def execAdd (rd rs1 rs2 : RegIdx) (s : State) : Host.Outcome State Fault Refusal :=
  .next (s.commit (aluEffect .add rd (s.readReg rs1) (s.readReg rs2)))

/-- SUB (R112). -/
def execSub (rd rs1 rs2 : RegIdx) (s : State) : Host.Outcome State Fault Refusal :=
  .next (s.commit (aluEffect .sub rd (s.readReg rs1) (s.readReg rs2)))

/-- AND (R113). -/
def execAnd (rd rs1 rs2 : RegIdx) (s : State) : Host.Outcome State Fault Refusal :=
  .next (s.commit (aluEffect .and rd (s.readReg rs1) (s.readReg rs2)))

/-- OR (R114). -/
def execOr (rd rs1 rs2 : RegIdx) (s : State) : Host.Outcome State Fault Refusal :=
  .next (s.commit (aluEffect .or rd (s.readReg rs1) (s.readReg rs2)))

/-- ADDI (R115): the immediate is the full 32-bit word, not its low 12 bits (R66, R79). -/
def execAddi (rd rs1 : RegIdx) (imm : Word) (s : State) : Host.Outcome State Fault Refusal :=
  .next (s.commit (aluEffect .add rd (s.readReg rs1) imm))

end Sys2Proof.Machine
end

