-- ==== Sys2Proof/Machine/Branch.lean ====
section
/-! DEFINITION. The branch controller, BEQ, BNE and JAL (spec/43_branch_jump.md R150 to R157), and the unknown
mnemonic's no-op (spec/40_engine.md R97). -/

namespace Sys2Proof.Machine

/-- A branch's effect (R150): a redirect to `pc + imm` when its condition holds, else none. -/
def branchEffect (s : State) (taken : Bool) (imm : Word) : Effect :=
  { redirect := if taken then some (branchTarget s imm) else none }

/-- BEQ (R151). -/
def execBeq (rs1 rs2 : RegIdx) (imm : Word) (s : State) : Host.Outcome State Fault Refusal :=
  .next (s.commit (branchEffect s (wordsEqual (s.readReg rs1) (s.readReg rs2)) imm))

/-- BNE (R152): the logical complement of BEQ's condition. -/
def execBne (rs1 rs2 : RegIdx) (imm : Word) (s : State) : Host.Outcome State Fault Refusal :=
  .next (s.commit (branchEffect s (!wordsEqual (s.readReg rs1) (s.readReg rs2)) imm))

/-- JAL (R153): the link is the JAL's own address plus 4; the redirect is always taken. -/
def execJal (rd : RegIdx) (imm : Word) (s : State) : Host.Outcome State Fault Refusal :=
  .next (s.commit { reg := some (rd, s.pc + Config.pcIncrement), redirect := some (branchTarget s imm) })

/-- An unknown mnemonic (R97): the empty effect, so only the PC advances. -/
def execUnknown (s : State) : Host.Outcome State Fault Refusal := .next (s.commit {})

end Sys2Proof.Machine
end

