-- ==== Sys2Proof/Machine/LoadStore.lean ====
section
/-! DEFINITION. The load-store unit, LW and SW (spec/42_load_store.md R130 to R134). -/

namespace Sys2Proof.Machine

/-- LW (R132): the value and the diagnostic of the slot at the effective address; memory is only read. -/
def execLw (rd : RegIdx) (imm : Word) (rs1 : RegIdx) (s : State) : Host.Outcome State Fault Refusal :=
  let ea := effectiveAddress s rs1 imm
  let found := loadValue ea (s.readMem ea)
  .next (s.commit { reg := some (rd, found.1), diag := found.2 })

/-- SW (R133): the slot at the effective address becomes data, the signed reading of `x[rs2]`. -/
def execSw (rs2 : RegIdx) (imm : Word) (rs1 : RegIdx) (s : State) : Host.Outcome State Fault Refusal :=
  .next (s.commit { mem := some (effectiveAddress s rs1 imm, .num (s.readReg rs2).sint) })

end Sys2Proof.Machine
end

