-- ==== Sys2Proof/Machine/Engine.lean ====
section
/-! DEFINITION. The fetch-decode-execute unit: the halt check, fetch, decode and execution of one step
(spec/40_engine.md R92 to R97, R101). -/

namespace Sys2Proof.Machine

/-- The line at the PC, or none when the halt condition holds (R92): the PC is `-1`, tested first, or no code
slot stands there. Only the line is taken, never the binary field (R43, R69). -/
def fetchLine (s : State) : Option Text :=
  if s.pc = Config.haltSentinel then none
  else
    match s.readMem (Word.addr s.pc) with
    | some (.code _ src) => some src
    | some (.data _) => none
    | none => none

/-- What a decoded line does (R93, R94): the no-op, the instruction's meaning, or the fault. -/
def execDecoded (d : Decoded) (src : Text) (s : State) : Host.Outcome State Fault Refusal :=
  match d with
  | .unknown => execUnknown s
  | .instr i => exec i s
  | .invalid reason k => .next (s.raiseInvalidOperand reason k src)

/-- One step of a RUNNING machine (R101), in the order of R174. -/
def engineStep (s : State) : Host.Outcome State Fault Refusal :=
  match fetchLine s with
  | none => .next s.halt
  | some src => execDecoded (decode src) src s

/-- `s` made ready so that its very next step runs `line`, kept beside the word `w` (assumption log 12): the
line at the PC (moved to 0 if it is the halt sentinel), RUNNING, and no fault record, as R27 asks of RUNNING. -/
def placeLine (s : State) (w : Word) (line : Text) : State :=
  let pc := if s.pc = Config.haltSentinel then 0 else s.pc
  { s with
    pc := pc
    mem := s.mem.write (Word.addr pc) (.code (.word w) line)
    run := .running
    fault := none }

end Sys2Proof.Machine
end

