-- ==== Sys2Proof/Machine/Step.lean ====
section
/-! DEFINITION. One step of the machine (spec/40_engine.md R90, R101), and the pipeline's entry that places one
instruction of the opcode table (assumption log 12). -/

namespace Sys2Proof.Machine

/-- One step. Steps happen only in RUNNING (R25, R90); in the other two run states there is none
(DESIGN CHOICE, assumption log 6, safe). -/
def step (s : State) : Host.Outcome State Fault Refusal :=
  match s.run with
  | .halted => .refused .halted
  | .faulted => .fault .faulted
  | .running => engineStep s

/-- The pipeline's entry: `s` with the instruction of a word of the opcode table placed where the next step
fetches, RUNNING. A word that no line encodes to leaves `s` as it is (assumption log 12). -/
def State.withFetchWord (s : State) (nbits w : Nat) : State :=
  match lineOfTableWord nbits w with
  | none => s
  | some line => placeLine s (tableWord nbits w) line

end Sys2Proof.Machine
end

