-- ==== Sys2Proof/Machine/HostOps.lean ====
section
/-! DEFINITION. What the host does to the machine between steps: reset, loadInstructions, loadData, setRegister,
run and observe (spec/70_reset_and_hazards.md R190 to R198; spec/40_engine.md R98), and an executor of the run
loop under a step budget (R99, R102, R103). -/

namespace Sys2Proof.Machine

/-- A host operation with its arguments (the rows of R198 that act). -/
inductive HostOp where
  | reset
  | loadInstructions (lines : List Text) (startAddress : Int)
  | loadData (entries : List (Int × Content))
  | setRegister (i : RegIdx) (v : Word)
  | run (startPC : Int)
deriving DecidableEq, Repr

/-- What a reset does (R190, R31), to any run state (R90): the PC is a free value, drawn (assumption log 2). When
the host may call for it is `hostOp`'s. -/
def hostReset (s : State) : State := State.resetAt (Config.pcAfterReset s.draws) (s.draws + 1)

/-- A line with at least one non-white-space character (the precondition of R193). -/
def nonBlankLine (line : Text) : Bool := line.any fun c => !isWhitespace c

/-- `startAddress` and `startAddress + 4*(n-1)` lie in the address range (R193); with no line, `startAddress`
does (DESIGN CHOICE, assumption log 10, safe). -/
def programInRange (n : Nat) (startAddress : Int) : Bool :=
  decide (InRange startAddress) && (n == 0 || decide (InRange (startAddress + Config.codeStride * ((n : Int) - 1))))

/-- The code slot of a line: the encoder's outcome beside the line itself (R193, R71). -/
def codeSlot (draw : Encoding) (line : Text) : Slot := .code ((encodeLine line).stored draw) line

/-- The lines at `a`, `a + 4`, and so on, in order (R193); each has a draw of its own for UNSPEC. -/
def writeLines (m : Memory) (a : Int) (draw : Nat) : List Text → Memory
  | [] => m
  | line :: lines =>
    writeLines (m.write a (codeSlot (Config.unspecEncoding draw) line)) (a + Config.codeStride) (draw + 1) lines

/-- `loadInstructions(lines, startAddress)` (R193). -/
def loadInstructions (lines : List Text) (startAddress : Int) (s : State) : Host.Outcome State Fault Refusal :=
  if s.run = .running then .refused .runInProgress
  else if lines.all nonBlankLine = false then .refused .blankLine
  else if programInRange lines.length startAddress = false then .refused .addressOutOfRange
  else .next { s with
    pc := Word.ofInteger startAddress
    mem := writeLines s.mem startAddress s.draws lines
    draws := s.draws + lines.length }

/-- The addresses of data entries are unique (R194). -/
def uniqueAddresses : List (Int × Content) → Bool
  | [] => true
  | (a, _) :: es => es.all (fun e => decide (e.1 ≠ a)) && uniqueAddresses es

/-- Each entry becomes the data slot at its address (R194). -/
def writeEntries (m : Memory) : List (Int × Content) → Memory
  | [] => m
  | (a, c) :: es => writeEntries (m.write a (.data c)) es

/-- `loadData(entries)` (R194). -/
def loadData (entries : List (Int × Content)) (s : State) : Host.Outcome State Fault Refusal :=
  if s.run = .running then .refused .runInProgress
  else if uniqueAddresses entries = false then .refused .duplicateAddress
  else if entries.all (fun e => decide (InRange e.1)) = false then .refused .addressOutOfRange
  else .next (s.setMem (writeEntries s.mem entries))

/-- `setRegister(i, v)` (R195); a write to x0 has no effect (R22). -/
def setRegister (i : RegIdx) (v : Word) (s : State) : Host.Outcome State Fault Refusal :=
  if s.run = .running then .refused .runInProgress else .next (s.writeReg i v)

/-- `run(startPC)` (R98), its start: in HALTED the run begins, in FAULTED there is no effect, and RUNNING
refuses (DESIGN CHOICE, assumption log 9, safe). It resets nothing (R192). -/
def hostRun (startPC : Int) (s : State) : Host.Outcome State Fault Refusal :=
  match s.run with
  | .running => .refused .runInProgress
  | .faulted => .next s
  | .halted =>
    if InRange startPC then .next ((s.setPc (Word.ofInteger startPC)).setRun .running)
    else .refused .addressOutOfRange

/-- The host's operations, one at a time, between two steps. None of them is admitted while RUNNING
(R198): for reset R198's last sentences and spec/92_eei_decisions.md D18 say so, and R90's row "any"
is what the block would do (DEDUCED, assumption log 8, safe). -/
def hostOp (op : HostOp) (s : State) : Host.Outcome State Fault Refusal :=
  match op with
  | .reset => if s.run = .running then .refused .runInProgress else .next (hostReset s)
  | .loadInstructions lines startAddress => loadInstructions lines startAddress s
  | .loadData entries => loadData entries s
  | .setRegister i v => setRegister i v s
  | .run startPC => hostRun startPC s

/-- What the host may read (R196), between two steps: 32 signed integers, the content of every address, the PC,
and the spec's own run state, diagnostics and fault record. -/
structure Observation where
  registers : Vector Int 32
  memory : Memory
  pc : Int
  run : RunState
  diag : List Diagnostic
  fault : Option FaultRecord
deriving DecidableEq, Repr

/-- Observation (R196): a function of the state, which it does not change. -/
def observe (s : State) : Observation where
  registers := Vector.ofFn fun i => (s.readReg i).sint
  memory := s.mem
  pc := Word.addr s.pc
  run := s.run
  diag := s.diag
  fault := s.fault

/-- What an executor of the run loop found under a step budget (assumption log 14): the last state, how many
instructions ran (R103), and whether the run was over. `ended = false` reports no end of run (R99). `ended = true`
reports a last state that is not RUNNING, HALTED and FAULTED alike: where R98's call returns, which is more than
R102's end of run, HALTED only; `state.run` tells the two apart (DESIGN CHOICE, assumption log 14, safe). -/
structure RunReport where
  state : State
  steps : Nat
  ended : Bool
deriving DecidableEq, Repr

/-- The run loop (R98) for at most `fuel` steps, `count` instructions having run. A step that leaves RUNNING
executed nothing and is not counted (R103). `ended` covers FAULTED as it covers HALTED (DESIGN CHOICE, assumption
log 14, safe): R98's return, not R102's end of run. -/
def runLoopFrom : Nat → Nat → State → RunReport
  | 0, count, s => ⟨s, count, decide (s.run ≠ .running)⟩
  | fuel + 1, count, s =>
    match step s with
    | .next t => runLoopFrom fuel (if t.run = .running then count + 1 else count) t
    | .fault _ => ⟨s, count, decide (s.run ≠ .running)⟩
    | .refused _ => ⟨s, count, decide (s.run ≠ .running)⟩

/-- The run loop from a state in which the host has called run; its `ended` is that of `runLoopFrom` (assumption
log 14). -/
def runLoop (fuel : Nat) (s : State) : RunReport := runLoopFrom fuel 0 s

end Sys2Proof.Machine
end

