-- ==== Sys2Proof/Safety.lean ====
section
/-! DEFINITION. The terms claims use: the invariants of the state, which states a machine can reach, what two
states share, and what a line's operands are by the spec's own table of checks. -/

namespace Sys2Proof.Machine

/-- What holds of every state a step or a host operation leaves (spec/10_state.md R21, R26, R27;
spec/20_memory.md R40). -/
structure State.Inv (s : State) : Prop where
  /-- memory is in canonical form, every address in range (R40) -/
  memCanonical : s.mem.wf
  /-- the stored x0 is zero (R21, R22) -/
  x0Zero : s.regs[0] = 0
  /-- a fault record stands exactly in FAULTED (R27) -/
  faultRecorded : s.fault ≠ none ↔ s.run = .faulted
  /-- every diagnostic names an address (R26) -/
  diagInRange : ∀ d ∈ s.diag, InRange d.addr

/-- Every code slot holds a line the loader admits beside the encoder's outcome for that line, where the spec
defines one (R41, R71, R193). -/
def State.CodeEncoded (s : State) : Prop :=
  ∀ a enc src, s.readMem a = some (.code enc src) →
    nonBlankLine src = true ∧
    (∀ w, encodeLine src = .word w → enc = .word w) ∧ (encodeLine src = .empty → enc = .empty)

/-- The states a machine can be in: after a reset with whatever PC, then any steps and admitted host
operations (spec/70_reset_and_hazards.md R197). -/
inductive Reachable : State → Prop where
  | reset (pc : Word) (draws : Nat) : Reachable (State.resetAt pc draws)
  | step (s t : State) : Reachable s → Machine.step s = .next t → Reachable t
  | host (op : HostOp) (s t : State) : Reachable s → hostOp op s = .next t → Reachable t

/-- The step finds the halt condition (spec/40_engine.md R92): the PC is `-1`, or no code slot stands there. -/
def State.HaltCondition (s : State) : Prop :=
  s.pc = 0xFFFFFFFF ∨ ∀ enc src, s.readMem (Word.addr s.pc) ≠ some (.code enc src)

/-- The next step runs the line `src`: RUNNING, the PC not `-1`, and `src` in the code slot there (R92, R93). -/
def State.RunsLine (s : State) (src : Text) : Prop :=
  s.run = .running ∧ s.pc ≠ 0xFFFFFFFF ∧ ∃ enc, s.readMem (Word.addr s.pc) = some (.code enc src)

/-- `t` has the registers of `s` but for `rd`, which holds `v`; if `rd` is x0 nothing is written (R22). -/
def RegWritten (s t : State) (rd : RegIdx) (v : Word) : Prop :=
  ∀ r, t.readReg r = if r = rd ∧ rd ≠ 0 then v else s.readReg r

/-- Every register reads as before. -/
def SameRegs (s t : State) : Prop := ∀ r, t.readReg r = s.readReg r

/-- Every address holds what it held. -/
def SameMem (s t : State) : Prop := ∀ a, t.readMem a = s.readMem a

/-- The run state, the fault record and the model's own counter are as before. -/
def SameControl (s t : State) : Prop := t.run = s.run ∧ t.fault = s.fault ∧ t.draws = s.draws

/-- A line that decodes as `i` begins with the token of `m` and has the encoder outcome `o`: what the
"Encoding" line of an instruction's rule says. -/
def EncodingIs (i : Instr) (m : Mnemonic) (o : EncodeOutcome) : Prop :=
  ∀ src, decode src = .instr i → (tokens src)[0]? = some m.text ∧ encodeLine src = o

/-- The encoder can read operand `k` (1-based): a decimal integer token in range (spec/30_encoding.md R74, R78). -/
def OperandReadable (ops : List Text) (k : Nat) : Prop :=
  ∃ t v, ops[k - 1]? = some t ∧ integerOf t = some v ∧ InRange v

/-- The host's loader admits these lines at this address (spec/70_reset_and_hazards.md R193): none blank, the first
and the last address in range. -/
def ProgramAdmitted (lines : List Text) (startAddress : Int) : Prop :=
  (∀ line ∈ lines, ∃ c ∈ line, isWhitespace c = false) ∧ InRange startAddress ∧
    (lines ≠ [] → InRange (startAddress + 4 * ((lines.length : Int) - 1)))

/-- The host's data load admits these entries (spec/70_reset_and_hazards.md R194): addresses unique and in range. -/
def EntriesAdmitted (entries : List (Int × Content)) : Prop :=
  (entries.map Prod.fst).Nodup ∧ ∀ e ∈ entries, InRange e.1

/-- `n` steps, stopping at the first that answers no next state. -/
def stepN : Nat → State → Host.Outcome State Fault Refusal
  | 0, s => .next s
  | n + 1, s =>
    match step s with
    | .next t => stepN n t
    | .fault r => .fault r
    | .refused r => .refused r

/-- The line redirects the PC by `imm` (spec/40_engine.md R95): a JAL, a BEQ of equal registers or a BNE of unequal
ones. -/
def Redirects (s : State) (src : Text) (imm : Word) : Prop :=
  (∃ rd, decode src = .instr (.jal rd imm)) ∨
  (∃ rs1 rs2, decode src = .instr (.beq rs1 rs2 imm) ∧ s.readReg rs1 = s.readReg rs2) ∨
  (∃ rs1 rs2, decode src = .instr (.bne rs1 rs2 imm) ∧ s.readReg rs1 ≠ s.readReg rs2)

/-- A slot without the encoder's word: nothing but the line of a code slot is left. -/
def Slot.withoutEncoding : Slot → Slot
  | .code _ src => .code .empty src
  | .data c => .data c

/-- A state without the binary fields of its code slots (spec/20_memory.md R43). -/
def State.withoutEncodings (s : State) : State :=
  { s with mem := s.mem.map fun p => (p.1, p.2.withoutEncoding) }

/-- The first check of R68 that operand `k` (1-based) of a line fails, in the order R68 makes them; none when
the operand is good or the form has no such operand. -/
def operandFailure (m : Mnemonic) (ops : List Text) (k : Nat) : Option FaultReason :=
  match m.roles[k - 1]?, ops[k - 1]? with
  | none, _ => none
  | some _, none => some .missingOperand
  | some role, some t =>
    match integerOf t with
    | none => some .notDecimal
    | some v =>
      if wfInteger v = false then some .intOutOfRange
      else if role = .register ∧ wfRegister v = false then some .registerOutOfRange
      else none

end Sys2Proof.Machine
end

