-- ==== Sys2Proof/Certificates/Slice0/Obligations.lean ====
section
/-! DEFINITION. The statements for the provers, each from numbered rules of spec/ (OBLIGATIONS.json lists them). -/

open Sys2Proof Sys2Proof.Machine

/-! ## The ten instructions: result, frame, completion and encoding -/

/-- R111. -/
def Obligations.AddWritesTheWrappedSum : Prop :=
  ∀ (rd rs1 rs2 : RegIdx) (s : State),
    (∃ t, exec (.add rd rs1 rs2) s = .next t ∧ RegWritten s t rd (s.readReg rs1 + s.readReg rs2) ∧
      t.pc = s.pc + 4 ∧ SameMem s t ∧ t.diag = s.diag ∧ SameControl s t) ∧
    EncodingIs (.add rd rs1 rs2) .add .empty

/-- R112. -/
def Obligations.SubWritesTheWrappedDifference : Prop :=
  ∀ (rd rs1 rs2 : RegIdx) (s : State),
    (∃ t, exec (.sub rd rs1 rs2) s = .next t ∧ RegWritten s t rd (s.readReg rs1 - s.readReg rs2) ∧
      t.pc = s.pc + 4 ∧ SameMem s t ∧ t.diag = s.diag ∧ SameControl s t) ∧
    EncodingIs (.sub rd rs1 rs2) .sub .empty

/-- R113. -/
def Obligations.AndWritesTheBitwiseAnd : Prop :=
  ∀ (rd rs1 rs2 : RegIdx) (s : State),
    (∃ t, exec (.and rd rs1 rs2) s = .next t ∧ RegWritten s t rd (s.readReg rs1 &&& s.readReg rs2) ∧
      t.pc = s.pc + 4 ∧ SameMem s t ∧ t.diag = s.diag ∧ SameControl s t) ∧
    EncodingIs (.and rd rs1 rs2) .and .empty

/-- R114. -/
def Obligations.OrWritesTheBitwiseOr : Prop :=
  ∀ (rd rs1 rs2 : RegIdx) (s : State),
    (∃ t, exec (.or rd rs1 rs2) s = .next t ∧ RegWritten s t rd (s.readReg rs1 ||| s.readReg rs2) ∧
      t.pc = s.pc + 4 ∧ SameMem s t ∧ t.diag = s.diag ∧ SameControl s t) ∧
    EncodingIs (.or rd rs1 rs2) .or .empty

/-- R115: the executed immediate is the full word; the encoded one is its low 12 bits; a malformed ADDI line is
UNSPEC. -/
def Obligations.AddiAddsTheFullImmediate : Prop :=
  ∀ (rd rs1 : RegIdx) (imm : Word) (s : State),
    (∃ t, exec (.addi rd rs1 imm) s = .next t ∧ RegWritten s t rd (s.readReg rs1 + imm) ∧
      t.pc = s.pc + 4 ∧ SameMem s t ∧ t.diag = s.diag ∧ SameControl s t) ∧
    EncodingIs (.addi rd rs1 imm) .addi
      (.word (imm.extractLsb' 0 12 ++ BitVec.ofNat 5 rs1.val ++ 0b000#3 ++ BitVec.ofNat 5 rd.val ++ 0b0010011#7)) ∧
    ∀ src ops, tokens src = Mnemonic.addi.text :: ops →
      ¬ (OperandReadable ops 1 ∧ OperandReadable ops 2 ∧ OperandReadable ops 3) → encodeLine src = .unspec

/-- R132 with the five rows of R131. -/
def Obligations.LwLoadsTheSlotOrLogsADiagnostic : Prop :=
  ∀ (rd : RegIdx) (imm : Word) (rs1 : RegIdx) (s : State) (ea : Int), ea = (s.readReg rs1 + imm).toInt →
    (∃ t, exec (.lw rd imm rs1) s = .next t ∧ t.pc = s.pc + 4 ∧ SameMem s t ∧ SameControl s t ∧
      (∀ v, s.readMem ea = some (.data (.num v)) → InRange v →
        RegWritten s t rd (BitVec.ofInt 32 v) ∧ t.diag = s.diag) ∧
      (∀ v, s.readMem ea = some (.data (.num v)) → ¬ InRange v →
        RegWritten s t rd 0 ∧ t.diag = s.diag ++ [⟨.malformed, ea⟩]) ∧
      (s.readMem ea = some (.data .malformed) → RegWritten s t rd 0 ∧ t.diag = s.diag ++ [⟨.malformed, ea⟩]) ∧
      (∀ enc src, s.readMem ea = some (.code enc src) →
        RegWritten s t rd 0 ∧ t.diag = s.diag ++ [⟨.malformed, ea⟩]) ∧
      (s.readMem ea = none → RegWritten s t rd 0 ∧ t.diag = s.diag ++ [⟨.noSlot, ea⟩])) ∧
    EncodingIs (.lw rd imm rs1) .lw .empty

/-- R133: the one address stored to is the effective address, and what it holds is a 32-bit signed integer. -/
def Obligations.SwStoresTheSignedReading : Prop :=
  ∀ (rs2 : RegIdx) (imm : Word) (rs1 : RegIdx) (s : State) (ea : Int), ea = (s.readReg rs1 + imm).toInt →
    (∃ t, exec (.sw rs2 imm rs1) s = .next t ∧ t.pc = s.pc + 4 ∧ SameRegs s t ∧ t.diag = s.diag ∧ SameControl s t ∧
      t.readMem ea = some (.data (.num (s.readReg rs2).toInt)) ∧ InRange (s.readReg rs2).toInt ∧
      ∀ a, a ≠ ea → t.readMem a = s.readMem a) ∧
    EncodingIs (.sw rs2 imm rs1) .sw .empty

/-- R151. -/
def Obligations.BeqBranchesWhenEqual : Prop :=
  ∀ (rs1 rs2 : RegIdx) (imm : Word) (s : State),
    (∃ t, exec (.beq rs1 rs2 imm) s = .next t ∧
      t.pc = (if s.readReg rs1 = s.readReg rs2 then s.pc + imm else s.pc + 4) ∧
      SameRegs s t ∧ SameMem s t ∧ t.diag = s.diag ∧ SameControl s t) ∧
    EncodingIs (.beq rs1 rs2 imm) .beq .empty

/-- R152. -/
def Obligations.BneBranchesWhenNotEqual : Prop :=
  ∀ (rs1 rs2 : RegIdx) (imm : Word) (s : State),
    (∃ t, exec (.bne rs1 rs2 imm) s = .next t ∧
      t.pc = (if s.readReg rs1 ≠ s.readReg rs2 then s.pc + imm else s.pc + 4) ∧
      SameRegs s t ∧ SameMem s t ∧ t.diag = s.diag ∧ SameControl s t) ∧
    EncodingIs (.bne rs1 rs2 imm) .bne .empty

/-- R153. -/
def Obligations.JalLinksAndJumps : Prop :=
  ∀ (rd : RegIdx) (imm : Word) (s : State),
    (∃ t, exec (.jal rd imm) s = .next t ∧ RegWritten s t rd (s.pc + 4) ∧ t.pc = s.pc + imm ∧
      SameMem s t ∧ t.diag = s.diag ∧ SameControl s t) ∧
    EncodingIs (.jal rd imm) .jal .empty

/-! ## Arithmetic, addresses and the store-load round trip -/

/-- R110, R116: exact modulo `2^32`, the signed reading of an overflow off by `2^32`, AND and OR bit by bit. -/
def Obligations.AluIsExactModuloTwoToThe32 : Prop :=
  ∀ p q : Word,
    alu .add p q = BitVec.ofInt 32 (p.toInt + q.toInt) ∧
    alu .sub p q = BitVec.ofInt 32 (p.toInt - q.toInt) ∧
    (∀ op v, (op = AluOp.add ∧ v = p.toInt + q.toInt) ∨ (op = AluOp.sub ∧ v = p.toInt - q.toInt) →
      (alu op p q).toInt = if 2147483647 < v then v - 4294967296 else if v < -2147483648 then v + 4294967296 else v) ∧
    (∀ i, (alu .and p q).getLsbD i = (p.getLsbD i && q.getLsbD i)) ∧
    (∀ i, (alu .or p q).getLsbD i = (p.getLsbD i || q.getLsbD i))

/-- R56, R130: an effective address is the sum wrapped into the 32-bit signed range, and so is always an address. -/
def Obligations.EffectiveAddressWrapsIntoRange : Prop :=
  ∀ (s : State) (rs1 : RegIdx) (imm : Word),
    InRange (effectiveAddress s rs1 imm) ∧
    ∃ k : Int, effectiveAddress s rs1 imm = (s.readReg rs1).toInt + imm.toInt + 4294967296 * k

/-- R134: what SW stored, LW at the same effective address loads, so long as that address is not written between. -/
def Obligations.StoreThenLoadReturnsTheValue : Prop :=
  ∀ (rs2 : RegIdx) (imm : Word) (rs1 rd : RegIdx) (imm' : Word) (rs1' : RegIdx) (s t u : State) (ea : Int),
    ea = (s.readReg rs1 + imm).toInt → exec (.sw rs2 imm rs1) s = .next t →
    (u.readReg rs1' + imm').toInt = ea → u.readMem ea = t.readMem ea →
    ∃ v, exec (.lw rd imm' rs1') u = .next v ∧ RegWritten u v rd (s.readReg rs2) ∧ v.diag = u.diag

/-! ## The step -/

/-- R92. -/
def Obligations.HaltConditionEndsTheRun : Prop :=
  ∀ s : State, s.run = .running → s.HaltCondition → step s = .next { s with run := .halted }

/-- R94, R101: a step of a machine whose line decodes to an instruction is that instruction's meaning. -/
def Obligations.StepRunsTheDecodedInstruction : Prop :=
  ∀ (s : State) (src : Text) (i : Instr), s.RunsLine src → decode src = .instr i → step s = exec i s

/-- R97. -/
def Obligations.UnknownMnemonicOnlyAdvancesThePc : Prop :=
  ∀ (s : State) (src : Text), (∀ m : Mnemonic, (tokens src)[0]? ≠ some m.text) →
    encodeLine src = .empty ∧ (s.RunsLine src → step s = .next { s with pc := s.pc + 4 })

/-- R185: a line whose first token is a system mnemonic, whatever else stands on it, is a no-op: the bare name,
white space before it, and any tokens after it. -/
def Obligations.SystemMnemonicsAreNoOps : Prop :=
  ∀ (s : State) (name : String) (src : Text),
    name ∈ ["ECALL", "EBREAK", "MRET", "WFI", "FENCE", "FENCE.I", "CSRRW", "CSRRS", "CSRRC", "CSRRWI", "CSRRSI", "CSRRCI"] →
    (tokens src)[0]? = some name.toList → s.RunsLine src → step s = .next { s with pc := s.pc + 4 }

/-- R172, R93, R98: the fault changes nothing but the run state and the record; it stays through every host
operation but reset, the host sees it, run has no effect on it, and reset clears it. -/
def Obligations.InvalidOperandFaultIsPreciseAndSticky : Prop :=
  (∀ (s : State) (src : Text) (r : FaultReason) (k : Nat), s.RunsLine src → decode src = .invalid r k →
    step s = .next { s with run := .faulted, fault := some ⟨r, k, s.pc.toInt, src⟩ }) ∧
  ∀ s : State, s.run = .faulted →
    (∀ t, step s ≠ .next t) ∧ (observe s).fault = s.fault ∧ (∀ p, hostRun p s = .next s) ∧
    (∀ op t, hostOp op s = .next t → op ≠ .reset → t.run = .faulted ∧ t.fault = s.fault) ∧
    ∃ t, hostOp .reset s = .next t ∧ t.run = .halted ∧ t.fault = none

/-- R90: the transitions of the run state, by steps and by the host; reset's row is the transition `hostReset` (when
the host may call for it: O41, assumption log 8). -/
def Obligations.RunStateTransitions : Prop :=
  (∀ s t : State, step s = .next t → s.run = .running ∧
    ((t.run = .halted ∧ s.HaltCondition) ∨
     (t.run = .faulted ∧ ∃ src r k, s.RunsLine src ∧ decode src = .invalid r k) ∨
     (t.run = .running ∧ ∃ src, s.RunsLine src ∧ ∀ r k, decode src ≠ .invalid r k))) ∧
  (∀ (s : State) (p : Int), s.run = .halted → InRange p → ∃ t, hostRun p s = .next t ∧ t.run = .running) ∧
  (∀ (s : State) (p : Int), s.run = .faulted → hostRun p s = .next s) ∧
  ∀ s : State, (hostReset s).run = .halted

/-- R100: in RUNNING every step completes, whatever the state, and draws no free value. -/
def Obligations.RunningStepAlwaysCompletes : Prop :=
  ∀ s : State, s.run = .running → ∃ t, step s = .next t ∧ t.draws = s.draws

/-- R95: only a taken BEQ, a taken BNE and every JAL redirect; every other executed line advances the PC by 4. -/
def Obligations.OnlyBranchesAndJumpsRedirect : Prop :=
  ∀ (s t : State) (src : Text), s.RunsLine src → step s = .next t → t.run = .running →
    (∀ imm, Redirects s src imm → t.pc = s.pc + imm) ∧ ((∀ imm, ¬ Redirects s src imm) → t.pc = s.pc + 4)

/-- R26: only LW appends a diagnostic, at most one, for the address it tried; only reset removes one. -/
def Obligations.OnlyLwLogsAndOnlyResetForgets : Prop :=
  (∀ s t : State, step s = .next t → t.diag = s.diag ∨
    ∃ src rd imm rs1 kind, s.RunsLine src ∧ decode src = .instr (.lw rd imm rs1) ∧
      t.diag = s.diag ++ [⟨kind, (s.readReg rs1 + imm).toInt⟩]) ∧
  ∀ (op : HostOp) (s t : State), hostOp op s = .next t → op ≠ .reset → t.diag = s.diag

/-- R44: a step changes memory only by SW, at its effective address, to a data slot; code slots are made by
loadInstructions alone. -/
def Obligations.OnlySwStoresAndOnlyTheLoaderMakesCode : Prop :=
  (∀ s t : State, step s = .next t → SameMem s t ∨
    ∃ src rs2 imm rs1, s.RunsLine src ∧ decode src = .instr (.sw rs2 imm rs1) ∧
      ∀ a, t.readMem a = if a = (s.readReg rs1 + imm).toInt then some (.data (.num (s.readReg rs2).toInt))
        else s.readMem a) ∧
  ∀ (op : HostOp) (s t : State) (a : Int) (enc : Encoding) (src : Text), hostOp op s = .next t →
    t.readMem a = some (.code enc src) →
    s.readMem a = some (.code enc src) ∨ ∃ lines start, op = .loadInstructions lines start

/-- R54: after a store, which itself goes on at the next PC, a fetch at the stored address ends the run, and no step creates or changes an instruction. -/
def Obligations.StoreDeletesTheInstruction : Prop :=
  (∀ (rs2 : RegIdx) (imm : Word) (rs1 : RegIdx) (s t u : State), exec (.sw rs2 imm rs1) s = .next t →
    t.pc = s.pc + 4 ∧ (u.run = .running → u.pc = s.readReg rs1 + imm → u.readMem u.pc.toInt = t.readMem u.pc.toInt →
      step u = .next { u with run := .halted })) ∧
  ∀ (s t : State) (a : Int) (enc : Encoding) (src : Text), step s = .next t →
    t.readMem a = some (.code enc src) → s.readMem a = some (.code enc src)

/-- R43, R69: states that differ only in the binary fields of their code slots step alike. -/
def Obligations.BinaryFieldsNeverAffectExecution : Prop :=
  ∀ s s' t : State, s.withoutEncodings = s'.withoutEncodings → step s = .next t →
    ∃ t', step s' = .next t' ∧ t.withoutEncodings = t'.withoutEncodings

/-- R48, R51: a step reads no slot but the one it fetches and the one an LW loads. -/
def Obligations.StepReadsOnlyTheFetchedAndLoadedSlots : Prop :=
  ∀ (s s' t : State) (src : Text), s' = { s with mem := s'.mem } → s.RunsLine src → s'.RunsLine src →
    (∀ rd imm rs1, decode src = .instr (.lw rd imm rs1) →
      s.readMem (s.readReg rs1 + imm).toInt = s'.readMem (s.readReg rs1 + imm).toInt) →
    step s = .next t →
    ∃ t', step s' = .next t' ∧ t' = { t with mem := t'.mem } ∧
      ∀ a, s.readMem a = s'.readMem a → t.readMem a = t'.readMem a

/-- R156: a redirect by 0 runs the same line again, forever; a branch leaves the whole state as it is. -/
def Obligations.RedirectByZeroNeverEnds : Prop :=
  ∀ (s : State) (src : Text), s.RunsLine src → Redirects s src 0 →
    ∀ n, ∃ t, stepN n s = .next t ∧ t.pc = s.pc ∧ t.run = .running ∧ t.RunsLine src ∧
      ((∀ rd, decode src ≠ .instr (.jal rd 0)) → t = s)

/-- R157: a redirect to `-1` ends the run at the next step, whatever stands at address -1. -/
def Obligations.RedirectToMinusOneHalts : Prop :=
  ∀ (s : State) (src : Text) (imm : Word), s.RunsLine src → Redirects s src imm → s.pc + imm = 0xFFFFFFFF →
    ∃ t, step s = .next t ∧ t.pc = 0xFFFFFFFF ∧ t.run = .running ∧ step t = .next { t with run := .halted }

/-! ## Text: tokens, the decoder and the canonical line -/

/-- R61: the white-space characters, and tokens as maximal runs of the others. -/
def Obligations.TokensAreTheMaximalRuns : Prop :=
  (∀ c, isWhitespace c = true ↔ c.toNat = 0x20 ∨ c.toNat = 0x09 ∨ c.toNat = 0x0A ∨ c.toNat = 0x0B ∨ c.toNat = 0x0C ∨
    c.toNat = 0x0D) ∧
  tokens [] = [] ∧
  (∀ s : Text, s ≠ [] → (∀ c ∈ s, isWhitespace c = false) → tokens s = [s]) ∧
  ∀ (a b : Text) (w : Char), isWhitespace w = true → tokens (a ++ w :: b) = tokens a ++ tokens b

/-- R60: the grammar of a decimal integer token and the integer it spells in base 10. -/
def Obligations.DecimalTokensSpellTheirInteger : Prop :=
  ∀ (t : Text) (v : Int), integerOf t = some v ↔
    ∃ sign ds : Text, (sign = [] ∨ sign = ['+'] ∨ sign = ['-']) ∧ ds ≠ [] ∧
      (∀ c ∈ ds, 48 ≤ c.toNat ∧ c.toNat ≤ 57) ∧ t = sign ++ ds ∧
      v = (if sign = ['-'] then -1 else 1) * ((Nat.ofDigits 10 (ds.reverse.map fun c => c.toNat - 48) : Nat) : Int)

/-- R62: exactly the ten spellings are supported, and the first token alone decides. -/
def Obligations.FirstTokenSelectsTheInstruction : Prop :=
  (∀ m : Mnemonic, String.ofList m.text ∈ ["ADD", "SUB", "AND", "OR", "ADDI", "LW", "SW", "BEQ", "BNE", "JAL"]) ∧
  (∀ name ∈ ["ADD", "SUB", "AND", "OR", "ADDI", "LW", "SW", "BEQ", "BNE", "JAL"], ∃ m : Mnemonic, m.text = name.toList) ∧
  ∀ src : Text, decode src = .unknown ↔ ∀ m : Mnemonic, (tokens src)[0]? ≠ some m.text

/-- R68, R70: a line of a supported mnemonic decodes to an instruction exactly when no operand fails a check, and
otherwise the leftmost failing position is reported, with the first check it fails. -/
def Obligations.LeftmostBadOperandIsReported : Prop :=
  ∀ (src : Text) (m : Mnemonic) (ops : List Text), tokens src = m.text :: ops →
    (∀ r k, decode src = .invalid r k ↔
      1 ≤ k ∧ operandFailure m ops k = some r ∧ ∀ j, 1 ≤ j → j < k → operandFailure m ops j = none) ∧
    ((∃ i, decode src = .instr i) ↔ ∀ k, 1 ≤ k → operandFailure m ops k = none)

/-- R67. -/
def Obligations.ExtraTokensAreIgnored : Prop :=
  ∀ (src src' : Text) (i : Instr) (extra : List Text), decode src = .instr i →
    tokens src' = tokens src ++ extra → decode src' = .instr i

/-- R63, R64, R66: a well-formed written instruction decodes to the instruction of its mnemonic and operands. -/
def Obligations.WellFormedLinesDecode : Prop :=
  ∀ w : Written, w.wf = true → ∃ i, decode w.line = .instr i ∧
    i.written.mnemonic = w.mnemonic ∧ i.written.operands = w.operands.take w.mnemonic.roles.length

/-- R60 to R68: decoding the canonical line of an instruction gives it back, every operand at every value. -/
def Obligations.DecodeReadsBackTheCanonicalLine : Prop :=
  ∀ i : Instr, decode (encode i) = .instr i

/-- The lines of spec/95_test_vectors.md, one of each family, with the operand orders of R63. -/
def Obligations.WrittenOutLinesDecode : Prop :=
  decode "ADD 1 2 3".toList = .instr (.add 1 2 3) ∧
  decode "ADDI 1 0 -5".toList = .instr (.addi 1 0 (-5)) ∧
  decode "LW 6 4 5".toList = .instr (.lw 6 4 5) ∧
  decode "SW 1 8 2".toList = .instr (.sw 1 8 2) ∧
  decode "BEQ 1 2 -40".toList = .instr (.beq 1 2 (-40)) ∧
  decode "JAL 1 16".toList = .instr (.jal 1 16)

/-! ## The instruction encoder -/

/-- R72, R73, R74: the word of an ADDI line, field by field. -/
def Obligations.EncoderWordOfAnAddiLine : Prop :=
  ∀ (src a b c : Text) (rest : List Text) (rd rs1 imm : Int),
    tokens src = "ADDI".toList :: a :: b :: c :: rest →
    integerOf a = some rd → integerOf b = some rs1 → integerOf c = some imm →
    InRange rd → InRange rs1 → InRange imm →
    ∃ w : Word, encodeLine src = .word w ∧
      ((w.extractLsb' 20 12).toNat : Int) = imm % 4096 ∧ ((w.extractLsb' 15 5).toNat : Int) = rs1 % 32 ∧
      w.extractLsb' 12 3 = 0b000#3 ∧ ((w.extractLsb' 7 5).toNat : Int) = rd % 32 ∧
      w.extractLsb' 0 7 = 0b0010011#7 ∧ w &&& 0x0000707F = 0x00000013

/-- R76, R77. -/
def Obligations.EveryOtherLineEncodesToEmpty : Prop :=
  ∀ src : Text, (tokens src)[0]? ≠ some "ADDI".toList → encodeLine src = .empty

/-- R78: UNSPEC is exactly the outcome of an ADDI line with an operand the encoder cannot read,
and a code slot then keeps whatever is drawn. -/
def Obligations.MalformedAddiLineIsUnspec : Prop :=
  ∀ (src : Text) (ops : List Text), tokens src = "ADDI".toList :: ops →
    (encodeLine src = .unspec ↔ ¬ (OperandReadable ops 1 ∧ OperandReadable ops 2 ∧ OperandReadable ops 3)) ∧
    (encodeLine src = .unspec → ∀ draw, (encodeLine src).stored draw = draw)

/-- R79: the encoded immediate spells the executed one exactly when that lies in 12 bits. -/
def Obligations.EncodedAndExecutedImmediatesDiffer : Prop :=
  ∀ (src : Text) (rd rs1 : RegIdx) (imm : Word), decode src = .instr (.addi rd rs1 imm) →
    ∃ w : Word, encodeLine src = .word w ∧ w.extractLsb' 20 12 = imm.extractLsb' 0 12 ∧
      ((w.extractLsb' 20 12).toInt = imm.toInt ↔ -2048 ≤ imm.toInt ∧ imm.toInt ≤ 2047)

/-! ## The host's operations -/

/-- What reset leaves, from any run state (R31, R90, R190), and when the host's call for it is admitted: while not
RUNNING, and refused in RUNNING, which is the model's reading of R198 and D18 (assumption log 8). The PC is not
claimed. -/
def Obligations.ResetLeavesTheStatedValues : Prop :=
  ∀ s : State,
    ((∀ r, (hostReset s).readReg r = 0) ∧ (∀ a, (hostReset s).readMem a = none) ∧ (hostReset s).run = .halted ∧
      (hostReset s).diag = [] ∧ (hostReset s).fault = none) ∧
    (s.run ≠ .running → hostOp .reset s = .next (hostReset s)) ∧
    (s.run = .running → ∃ r, hostOp .reset s = .refused r)

/-- What loadInstructions does when it is admitted (R193), and that it is refused otherwise. That no line at all is
admitted at every start address in range is the model's choice (DESIGN CHOICE, assumption log 10). -/
def Obligations.LoadInstructionsPlacesTheLines : Prop :=
  ∀ (lines : List Text) (start : Int) (s : State),
    (s.run ≠ .running → ProgramAdmitted lines start →
      ∃ t, loadInstructions lines start s = .next t ∧ t.pc = BitVec.ofInt 32 start ∧ SameRegs s t ∧
        t.run = s.run ∧ t.diag = s.diag ∧ t.fault = s.fault ∧
        (∀ (i : Nat) (h : i < lines.length), ∃ enc, t.readMem (start + 4 * i) = some (.code enc lines[i]) ∧
          (∀ w, encodeLine lines[i] = .word w → enc = .word w) ∧ (encodeLine lines[i] = .empty → enc = .empty)) ∧
        ∀ a, (∀ i : Nat, i < lines.length → a ≠ start + 4 * i) → t.readMem a = s.readMem a) ∧
    (s.run = .running ∨ ¬ ProgramAdmitted lines start → ∃ r, loadInstructions lines start s = .refused r)

/-- What loadData does when it is admitted (R194), and that it is refused otherwise. That it is refused for repeated
addresses is the model's choice (DESIGN CHOICE, assumption log 10). -/
def Obligations.LoadDataPlacesTheEntries : Prop :=
  ∀ (entries : List (Int × Content)) (s : State),
    (s.run ≠ .running → EntriesAdmitted entries →
      ∃ t, loadData entries s = .next t ∧ t.pc = s.pc ∧ SameRegs s t ∧ t.diag = s.diag ∧ SameControl s t ∧
        (∀ a c, (a, c) ∈ entries → t.readMem a = some (.data c)) ∧
        ∀ a, (∀ c, (a, c) ∉ entries) → t.readMem a = s.readMem a) ∧
    (s.run = .running ∨ ¬ EntriesAdmitted entries → ∃ r, loadData entries s = .refused r)

/-- R194: the order of data entries is irrelevant, to the state itself, over a memory in canonical form. -/
def Obligations.DataEntryOrderIsIrrelevant : Prop :=
  ∀ (entries entries' : List (Int × Content)) (s t : State), s.mem.wf → entries.Perm entries' →
    loadData entries s = .next t → loadData entries' s = .next t

/-- R195: the host's register write, its effect on x0 and its refusal. -/
def Obligations.SetRegisterWritesOneRegister : Prop :=
  ∀ (i : RegIdx) (v : Word) (s : State),
    (s.run ≠ .running → ∃ t, setRegister i v s = .next t ∧ RegWritten s t i v ∧ SameMem s t ∧ t.pc = s.pc ∧
      t.diag = s.diag ∧ SameControl s t) ∧
    (s.run = .running → ∃ r, setRegister i v s = .refused r)

/-- R98: run starts a run in HALTED and resets nothing; in FAULTED it has no effect. -/
def Obligations.RunStartsWithoutResetting : Prop :=
  ∀ (p : Int) (s : State), InRange p →
    (s.run = .halted → ∃ t, hostRun p s = .next t ∧ t.pc.toInt = p ∧ t.run = .running ∧ SameRegs s t ∧ SameMem s t ∧
      t.diag = s.diag ∧ t.fault = s.fault) ∧
    (s.run = .faulted → hostRun p s = .next s)

/-- R196: what the host reads, registers as signed integers. -/
def Obligations.ObservationReadsTheState : Prop :=
  ∀ s : State, (∀ r : RegIdx, (observe s).registers[r] = (s.readReg r).toInt) ∧ (observe s).registers[0] = 0 ∧
    (∀ a, (observe s).memory.read a = s.readMem a) ∧ (observe s).pc = s.pc.toInt ∧ (observe s).run = s.run ∧
    (observe s).diag = s.diag ∧ (observe s).fault = s.fault

/-- R99, R102: an executor out of budget reports no end of run, and has run its whole budget; one that reports an
end has found a state that is not RUNNING, so many steps on. That FAULTED counts as an end here, as R98's return and
not R102's end of run, is the model's choice (DESIGN CHOICE, assumption log 14). -/
def Obligations.ExecutorReportsOnlyRealEnds : Prop :=
  ∀ (fuel : Nat) (s : State), s.run = .running →
    ((runLoop fuel s).ended = true ↔ (runLoop fuel s).state.run ≠ .running) ∧
    ((runLoop fuel s).ended = false → stepN fuel s = .next (runLoop fuel s).state ∧ (runLoop fuel s).steps = fuel) ∧
    ((runLoop fuel s).ended = true → (runLoop fuel s).steps < fuel ∧
      stepN ((runLoop fuel s).steps + 1) s = .next (runLoop fuel s).state)

/-- R100: more budget does not change the report of an ended run. -/
def Obligations.EndedRunIsTheSameUnderMoreFuel : Prop :=
  ∀ (fuel more : Nat) (s : State), s.run = .running → (runLoop fuel s).ended = true →
    runLoop (fuel + more) s = runLoop fuel s

/-! ## Invariants -/

/-- The invariant holds after reset, whatever the PC and the counter of free values. -/
def Obligations.InvariantHoldsAfterReset : Prop :=
  ∀ (pc : Word) (draws : Nat), (State.resetAt pc draws).Inv

/-- Every step keeps the invariant, from every state that has it. -/
def Obligations.StepKeepsTheInvariant : Prop :=
  ∀ s t : State, s.Inv → step s = .next t → t.Inv

/-- Every admitted host operation keeps the invariant. -/
def Obligations.HostOperationsKeepTheInvariant : Prop :=
  ∀ (op : HostOp) (s t : State), s.Inv → hostOp op s = .next t → t.Inv

/-- Every reachable state has the invariant, and its code slots hold admitted lines beside the encoder's outcome. -/
def Obligations.ReachableStatesAreSound : Prop :=
  ∀ s : State, Reachable s → s.Inv ∧ s.CodeEncoded

/-- R40: memories in canonical form that hold the same at every address are equal data, and none holds a slot at an
address out of range. -/
def Obligations.CanonicalMemoryIsExtensional : Prop :=
  (∀ m m' : Memory, m.wf → m'.wf → (∀ a, m.read a = m'.read a) → m = m') ∧
  ∀ (m : Memory) (a : Int), m.wf → ¬ InRange a → m.read a = none

/-- A step keeps R41's pairing of each code slot's line with the encoder's outcome (R71, R193), from every state
that has it. -/
def Obligations.StepKeepsCodeEncoded : Prop :=
  ∀ s t : State, s.CodeEncoded → step s = .next t → t.CodeEncoded

/-- Every admitted host operation keeps it, from every state that has it; loadInstructions makes it. -/
def Obligations.HostOperationsKeepCodeEncoded : Prop :=
  ∀ (op : HostOp) (s t : State), s.CodeEncoded → hostOp op s = .next t → t.CodeEncoded
end

