-- ==== Sys2Proof/Laws/State.lean ====
section
/-! SUPPORT. One lemma for each field of State after each update, so that no proof unfolds an update. -/

namespace Sys2Proof.Machine.State

@[simp] theorem setPc_regs (s : State) (w : Word) : (s.setPc w).regs = s.regs := rfl
@[simp] theorem setPc_pc (s : State) (w : Word) : (s.setPc w).pc = w := rfl
@[simp] theorem setPc_mem (s : State) (w : Word) : (s.setPc w).mem = s.mem := rfl
@[simp] theorem setPc_run (s : State) (w : Word) : (s.setPc w).run = s.run := rfl
@[simp] theorem setPc_diag (s : State) (w : Word) : (s.setPc w).diag = s.diag := rfl
@[simp] theorem setPc_fault (s : State) (w : Word) : (s.setPc w).fault = s.fault := rfl
@[simp] theorem setPc_draws (s : State) (w : Word) : (s.setPc w).draws = s.draws := rfl

@[simp] theorem setMem_regs (s : State) (m : Memory) : (s.setMem m).regs = s.regs := rfl
@[simp] theorem setMem_pc (s : State) (m : Memory) : (s.setMem m).pc = s.pc := rfl
@[simp] theorem setMem_mem (s : State) (m : Memory) : (s.setMem m).mem = m := rfl
@[simp] theorem setMem_run (s : State) (m : Memory) : (s.setMem m).run = s.run := rfl
@[simp] theorem setMem_diag (s : State) (m : Memory) : (s.setMem m).diag = s.diag := rfl
@[simp] theorem setMem_fault (s : State) (m : Memory) : (s.setMem m).fault = s.fault := rfl
@[simp] theorem setMem_draws (s : State) (m : Memory) : (s.setMem m).draws = s.draws := rfl

@[simp] theorem setRun_regs (s : State) (r : RunState) : (s.setRun r).regs = s.regs := rfl
@[simp] theorem setRun_pc (s : State) (r : RunState) : (s.setRun r).pc = s.pc := rfl
@[simp] theorem setRun_mem (s : State) (r : RunState) : (s.setRun r).mem = s.mem := rfl
@[simp] theorem setRun_run (s : State) (r : RunState) : (s.setRun r).run = r := rfl
@[simp] theorem setRun_diag (s : State) (r : RunState) : (s.setRun r).diag = s.diag := rfl
@[simp] theorem setRun_fault (s : State) (r : RunState) : (s.setRun r).fault = s.fault := rfl
@[simp] theorem setRun_draws (s : State) (r : RunState) : (s.setRun r).draws = s.draws := rfl

@[simp] theorem emit_regs (s : State) (d : Diagnostic) : (s.emit d).regs = s.regs := rfl
@[simp] theorem emit_pc (s : State) (d : Diagnostic) : (s.emit d).pc = s.pc := rfl
@[simp] theorem emit_mem (s : State) (d : Diagnostic) : (s.emit d).mem = s.mem := rfl
@[simp] theorem emit_run (s : State) (d : Diagnostic) : (s.emit d).run = s.run := rfl
@[simp] theorem emit_diag (s : State) (d : Diagnostic) : (s.emit d).diag = s.diag ++ [d] := rfl
@[simp] theorem emit_fault (s : State) (d : Diagnostic) : (s.emit d).fault = s.fault := rfl
@[simp] theorem emit_draws (s : State) (d : Diagnostic) : (s.emit d).draws = s.draws := rfl

@[simp] theorem setFault_regs (s : State) (f : Option FaultRecord) : (s.setFault f).regs = s.regs := rfl
@[simp] theorem setFault_pc (s : State) (f : Option FaultRecord) : (s.setFault f).pc = s.pc := rfl
@[simp] theorem setFault_mem (s : State) (f : Option FaultRecord) : (s.setFault f).mem = s.mem := rfl
@[simp] theorem setFault_run (s : State) (f : Option FaultRecord) : (s.setFault f).run = s.run := rfl
@[simp] theorem setFault_diag (s : State) (f : Option FaultRecord) : (s.setFault f).diag = s.diag := rfl
@[simp] theorem setFault_fault (s : State) (f : Option FaultRecord) : (s.setFault f).fault = f := rfl
@[simp] theorem setFault_draws (s : State) (f : Option FaultRecord) : (s.setFault f).draws = s.draws := rfl

/-! A register write changes `regs` alone, whichever register it names. -/

@[simp] theorem writeReg_pc (s : State) (i : RegIdx) (v : Word) : (s.writeReg i v).pc = s.pc := by
  unfold writeReg; split <;> rfl
@[simp] theorem writeReg_mem (s : State) (i : RegIdx) (v : Word) : (s.writeReg i v).mem = s.mem := by
  unfold writeReg; split <;> rfl
@[simp] theorem writeReg_run (s : State) (i : RegIdx) (v : Word) : (s.writeReg i v).run = s.run := by
  unfold writeReg; split <;> rfl
@[simp] theorem writeReg_diag (s : State) (i : RegIdx) (v : Word) : (s.writeReg i v).diag = s.diag := by
  unfold writeReg; split <;> rfl
@[simp] theorem writeReg_fault (s : State) (i : RegIdx) (v : Word) : (s.writeReg i v).fault = s.fault := by
  unfold writeReg; split <;> rfl
@[simp] theorem writeReg_draws (s : State) (i : RegIdx) (v : Word) : (s.writeReg i v).draws = s.draws := by
  unfold writeReg; split <;> rfl

/-! A data write changes `mem` alone. -/

@[simp] theorem writeData_regs (s : State) (a : Int) (c : Content) : (s.writeData a c).regs = s.regs := rfl
@[simp] theorem writeData_pc (s : State) (a : Int) (c : Content) : (s.writeData a c).pc = s.pc := rfl
@[simp] theorem writeData_mem (s : State) (a : Int) (c : Content) : (s.writeData a c).mem = s.mem.write a (.data c) := rfl
@[simp] theorem writeData_run (s : State) (a : Int) (c : Content) : (s.writeData a c).run = s.run := rfl
@[simp] theorem writeData_diag (s : State) (a : Int) (c : Content) : (s.writeData a c).diag = s.diag := rfl
@[simp] theorem writeData_fault (s : State) (a : Int) (c : Content) : (s.writeData a c).fault = s.fault := rfl
@[simp] theorem writeData_draws (s : State) (a : Int) (c : Content) : (s.writeData a c).draws = s.draws := rfl

/-! Taking the fault, and the halt. -/

@[simp] theorem raiseInvalidOperand_regs (s : State) (r : FaultReason) (k : Nat) (src : Text) :
    (s.raiseInvalidOperand r k src).regs = s.regs := rfl
@[simp] theorem raiseInvalidOperand_pc (s : State) (r : FaultReason) (k : Nat) (src : Text) :
    (s.raiseInvalidOperand r k src).pc = s.pc := rfl
@[simp] theorem raiseInvalidOperand_mem (s : State) (r : FaultReason) (k : Nat) (src : Text) :
    (s.raiseInvalidOperand r k src).mem = s.mem := rfl
@[simp] theorem raiseInvalidOperand_run (s : State) (r : FaultReason) (k : Nat) (src : Text) :
    (s.raiseInvalidOperand r k src).run = RunState.faulted := rfl
@[simp] theorem raiseInvalidOperand_diag (s : State) (r : FaultReason) (k : Nat) (src : Text) :
    (s.raiseInvalidOperand r k src).diag = s.diag := rfl
@[simp] theorem raiseInvalidOperand_fault (s : State) (r : FaultReason) (k : Nat) (src : Text) :
    (s.raiseInvalidOperand r k src).fault = some ⟨r, k, Word.addr s.pc, src⟩ := rfl
@[simp] theorem raiseInvalidOperand_draws (s : State) (r : FaultReason) (k : Nat) (src : Text) :
    (s.raiseInvalidOperand r k src).draws = s.draws := rfl
@[simp] theorem halt_regs (s : State) : s.halt.regs = s.regs := rfl
@[simp] theorem halt_pc (s : State) : s.halt.pc = s.pc := rfl
@[simp] theorem halt_mem (s : State) : s.halt.mem = s.mem := rfl
@[simp] theorem halt_run (s : State) : s.halt.run = RunState.halted := rfl
@[simp] theorem halt_diag (s : State) : s.halt.diag = s.diag := rfl
@[simp] theorem halt_fault (s : State) : s.halt.fault = s.fault := rfl
@[simp] theorem halt_draws (s : State) : s.halt.draws = s.draws := rfl

/-! The state after reset. -/

@[simp] theorem resetAt_regs (w : Word) (n : Nat) : (resetAt w n).regs = Vector.replicate 32 0 := rfl
@[simp] theorem resetAt_pc (w : Word) (n : Nat) : (resetAt w n).pc = w := rfl
@[simp] theorem resetAt_mem (w : Word) (n : Nat) : (resetAt w n).mem = [] := rfl
@[simp] theorem resetAt_run (w : Word) (n : Nat) : (resetAt w n).run = RunState.halted := rfl
@[simp] theorem resetAt_diag (w : Word) (n : Nat) : (resetAt w n).diag = [] := rfl
@[simp] theorem resetAt_fault (w : Word) (n : Nat) : (resetAt w n).fault = none := rfl
@[simp] theorem resetAt_draws (w : Word) (n : Nat) : (resetAt w n).draws = n := rfl

end Sys2Proof.Machine.State
end

