-- ==== Sys2Proof/Laws/Memory.lean ====
section
/-! SUPPORT. The laws of the address space: what a write changes, and that it keeps the canonical form
(spec/20_memory.md R42, R44). -/

namespace Sys2Proof.Machine

@[simp] theorem Memory.read_nil (a : Int) : Memory.read [] a = none := rfl

/-- A write is read back, and no other address changes. -/
theorem Memory.read_write (m : Memory) (a : Int) (x : Slot) (b : Int) :
    (m.write a x).read b = if b = a then some x else m.read b := by
  induction m with
  | nil => simp [Memory.write, Memory.read]
  | cons p m ih =>
    obtain ⟨c, y⟩ := p
    simp only [Memory.write]
    split
    · simp [Memory.read]
    · split
      · rename_i h; subst h; simp only [Memory.read]; split <;> rfl
      · rename_i h; simp only [Memory.read, ih]
        by_cases hb : b = c
        · subst hb; simp [Ne.symm h]
        · simp [hb]

/-- The addresses listed after a write. -/
theorem Memory.mem_write {m : Memory} {a : Int} {x : Slot} {p : Int × Slot} (h : p ∈ m.write a x) :
    p = (a, x) ∨ p ∈ m := by
  induction m with
  | nil => simpa [Memory.write] using h
  | cons q m ih =>
    obtain ⟨c, y⟩ := q
    simp only [Memory.write] at h
    split at h
    · simpa using h
    · split at h
      · rcases List.mem_cons.1 h with h | h
        · exact .inl h
        · exact .inr (List.mem_cons_of_mem _ h)
      · rcases List.mem_cons.1 h with h | h
        · exact .inr (h ▸ List.mem_cons_self)
        · exact (ih h).imp_right (List.mem_cons_of_mem _)

/-- The empty memory is in canonical form. -/
theorem Memory.wf_nil : Memory.wf [] := by decide

/-- A write at an address in range keeps the canonical form. -/
theorem Memory.wf_write {m : Memory} (h : m.wf) {a : Int} (ha : InRange a) (x : Slot) : (m.write a x).wf := by
  refine ⟨?_, fun p hp => ?_⟩
  · have h1 := h.1
    clear h
    induction m with
    | nil => simp [Memory.write]
    | cons q m ih =>
      obtain ⟨c, y⟩ := q
      obtain ⟨hq, hm⟩ := List.pairwise_cons.1 h1
      simp only [Memory.write]
      split
      · rename_i hac
        refine List.pairwise_cons.2 ⟨fun p hp => ?_, h1⟩
        rcases List.mem_cons.1 hp with rfl | hp
        · exact hac
        · exact lt_trans hac (hq p hp)
      · split
        · rename_i hac; subst hac; exact List.pairwise_cons.2 ⟨hq, hm⟩
        · refine List.pairwise_cons.2 ⟨fun p hp => ?_, ih hm⟩
          rcases Memory.mem_write hp with rfl | hp
          · show c < a; omega
          · exact hq p hp
  · rcases Memory.mem_write hp with rfl | hp
    · exact ha
    · exact h.2 p hp

/-- A slot is read only at a listed address. -/
theorem Memory.mem_of_read {m : Memory} {a : Int} {x : Slot} (h : m.read a = some x) : (a, x) ∈ m := by
  induction m with
  | nil => simp at h
  | cons q m ih =>
    obtain ⟨c, y⟩ := q
    simp only [Memory.read] at h
    split at h
    · rename_i hac; subst hac; simp_all
    · exact List.mem_cons_of_mem _ (ih h)

/-- In canonical form, a listed slot is the one read. -/
theorem Memory.read_of_mem {m : Memory} (h : m.wf) {a : Int} {x : Slot} (hx : (a, x) ∈ m) :
    m.read a = some x := by
  have h1 := h.1
  clear h
  induction m with
  | nil => simp at hx
  | cons q m ih =>
    obtain ⟨c, y⟩ := q
    obtain ⟨hq, hm⟩ := List.pairwise_cons.1 h1
    simp only [Memory.read]
    rcases List.mem_cons.1 hx with e | hx
    · cases e; simp
    · have : c < a := hq _ hx
      rw [if_neg (by omega), ih hx hm]

namespace State

theorem readMem_setMem (s : State) (m : Memory) (a : Int) : (s.setMem m).readMem a = m.read a := rfl

@[simp] theorem setPc_readMem (s : State) (w : Word) (a : Int) : (s.setPc w).readMem a = s.readMem a := rfl
@[simp] theorem setRun_readMem (s : State) (r : RunState) (a : Int) : (s.setRun r).readMem a = s.readMem a := rfl
@[simp] theorem emit_readMem (s : State) (d : Diagnostic) (a : Int) : (s.emit d).readMem a = s.readMem a := rfl
@[simp] theorem setFault_readMem (s : State) (f : Option FaultRecord) (a : Int) :
    (s.setFault f).readMem a = s.readMem a := rfl
@[simp] theorem writeReg_readMem (s : State) (i : RegIdx) (v : Word) (a : Int) :
    (s.writeReg i v).readMem a = s.readMem a := by simp [readMem]

/-- `MemWrite` (R44): the content of `a`, and no other address. -/
theorem readMem_writeData (s : State) (a : Int) (c : Content) (b : Int) :
    (s.writeData a c).readMem b = if b = a then some (.data c) else s.readMem b :=
  Memory.read_write s.mem a (.data c) b

end State

end Sys2Proof.Machine
end

