-- ==== Sys2Proof/Laws/Registers.lean ====
section
/-! SUPPORT. Reading a register after a write, and after every update that leaves the registers alone
(spec/10_state.md R21, R22). -/

namespace Sys2Proof.Machine.State

@[simp] theorem readReg_zero (s : State) : s.readReg 0 = 0 := rfl

/-- The registers are all that a register read depends on. -/
theorem readReg_congr {s t : State} (h : t.regs = s.regs) (r : RegIdx) : t.readReg r = s.readReg r := by
  unfold readReg; rw [h]

/-- A write is read back at its register, unless that is x0, and no other register changes. -/
theorem readReg_writeReg (s : State) (i r : RegIdx) (v : Word) :
    (s.writeReg i v).readReg r = if r = i ∧ i ≠ 0 then v else s.readReg r := by
  unfold writeReg readReg
  by_cases hi : i = 0
  · simp [hi]
  · by_cases hr : r = 0
    · subst hr; simp [hi, Ne.symm hi]
    · by_cases hri : r = i
      · subst hri; simp [hi, Fin.getElem_fin]
      · have hv : i.val ≠ r.val := fun h => hri (Fin.ext h.symm)
        simp [hi, hr, hri, Fin.getElem_fin, Vector.getElem_set_ne _ _ hv]

@[simp] theorem writeReg_x0 (s : State) (v : Word) : s.writeReg 0 v = s := rfl

/-- The stored x0 is never written (R22). -/
theorem writeReg_stored_x0 (s : State) (i : RegIdx) (v : Word) : (s.writeReg i v).regs[0] = s.regs[0] := by
  unfold writeReg
  split
  · rfl
  · rename_i h
    have hv : i.val ≠ 0 := fun e => h (Fin.ext e)
    simp [Vector.getElem_set_ne _ _ hv]

@[simp] theorem setPc_readReg (s : State) (w : Word) (r : RegIdx) : (s.setPc w).readReg r = s.readReg r := rfl
@[simp] theorem setMem_readReg (s : State) (m : Memory) (r : RegIdx) : (s.setMem m).readReg r = s.readReg r := rfl
@[simp] theorem setRun_readReg (s : State) (x : RunState) (r : RegIdx) : (s.setRun x).readReg r = s.readReg r := rfl
@[simp] theorem emit_readReg (s : State) (d : Diagnostic) (r : RegIdx) : (s.emit d).readReg r = s.readReg r := rfl
@[simp] theorem setFault_readReg (s : State) (f : Option FaultRecord) (r : RegIdx) :
    (s.setFault f).readReg r = s.readReg r := rfl
@[simp] theorem writeData_readReg (s : State) (a : Int) (c : Content) (r : RegIdx) :
    (s.writeData a c).readReg r = s.readReg r := rfl

@[simp] theorem resetAt_readReg (w : Word) (n : Nat) (r : RegIdx) : (resetAt w n).readReg r = 0 := by
  simp [readReg, Fin.getElem_fin]

end Sys2Proof.Machine.State
end

