-- ==== Sys2Proof/Laws/Commit.lean ====
section
/-! SUPPORT. The commit of an effect, field by field (spec/40_engine.md R94, R95): said once, cited for every
instruction. -/

namespace Sys2Proof.Machine.State

@[simp] theorem commit_run (s : State) (e : Effect) : (s.commit e).run = s.run := by
  rcases e with ⟨_ | ⟨_, _⟩, _ | ⟨_, _⟩, _ | _, _ | _⟩ <;> simp [commit, commitReg, commitMem, commitDiag, commitPc]

@[simp] theorem commit_fault (s : State) (e : Effect) : (s.commit e).fault = s.fault := by
  rcases e with ⟨_ | ⟨_, _⟩, _ | ⟨_, _⟩, _ | _, _ | _⟩ <;> simp [commit, commitReg, commitMem, commitDiag, commitPc]

@[simp] theorem commit_draws (s : State) (e : Effect) : (s.commit e).draws = s.draws := by
  rcases e with ⟨_ | ⟨_, _⟩, _ | ⟨_, _⟩, _ | _, _ | _⟩ <;> simp [commit, commitReg, commitMem, commitDiag, commitPc]

/-- The PC after an effect: its redirect, else `pc + 4`. -/
theorem commit_pc (s : State) (e : Effect) : (s.commit e).pc = e.redirect.getD (s.pc + 4) := by
  rcases e with ⟨_ | ⟨_, _⟩, _ | ⟨_, _⟩, _ | _, _ | _⟩ <;> simp [commit, commitReg, commitMem, commitDiag, commitPc]

/-- The diagnostics log after an effect: its record appended, if it has one. -/
theorem commit_diag (s : State) (e : Effect) : (s.commit e).diag = s.diag ++ e.diag.toList := by
  rcases e with ⟨_ | ⟨_, _⟩, _ | ⟨_, _⟩, _ | _, _ | _⟩ <;> simp [commit, commitReg, commitMem, commitDiag, commitPc]

/-- The registers after an effect: those after its register write, if it has one. -/
theorem commit_readReg (s : State) (e : Effect) (r : RegIdx) :
    (s.commit e).readReg r = (s.commitReg e.reg).readReg r := by
  rcases e with ⟨_ | ⟨_, _⟩, _ | ⟨_, _⟩, _ | _, _ | _⟩ <;> simp [commit, commitReg, commitMem, commitDiag, commitPc]

/-- The memory after an effect: that after its memory write, if it has one. -/
theorem commit_mem (s : State) (e : Effect) : (s.commit e).mem = (s.commitMem e.mem).mem := by
  rcases e with ⟨_ | ⟨_, _⟩, _ | ⟨_, _⟩, _ | _, _ | _⟩ <;> simp [commit, commitReg, commitMem, commitDiag, commitPc]

/-- The stored x0 after an effect. -/
theorem commit_stored_x0 (s : State) (e : Effect) : (s.commit e).regs[0] = s.regs[0] := by
  rcases e with ⟨_ | ⟨_, _⟩, _ | ⟨_, _⟩, _ | _, _ | _⟩ <;>
    simp [commit, commitReg, commitMem, commitDiag, commitPc, writeReg_stored_x0]

theorem commit_readMem_none (s : State) (e : Effect) (h : e.mem = none) (a : Int) :
    (s.commit e).readMem a = s.readMem a := by simp [readMem, commit_mem, h, commitMem]

theorem commit_readMem_some (s : State) (e : Effect) {b : Int} {c : Content} (h : e.mem = some (b, c))
    (a : Int) : (s.commit e).readMem a = if a = b then some (.data c) else s.readMem a := by
  rw [show (s.commit e).readMem a = (s.writeData b c).readMem a by simp [readMem, commit_mem, h, commitMem]]
  exact readMem_writeData s b c a

theorem commit_readReg_none (s : State) (e : Effect) (h : e.reg = none) (r : RegIdx) :
    (s.commit e).readReg r = s.readReg r := by rw [commit_readReg, h]; rfl

theorem commit_readReg_some (s : State) (e : Effect) {rd : RegIdx} {v : Word} (h : e.reg = some (rd, v))
    (r : RegIdx) : (s.commit e).readReg r = if r = rd ∧ rd ≠ 0 then v else s.readReg r := by
  rw [commit_readReg, h]; exact readReg_writeReg s rd r v

end Sys2Proof.Machine.State
end

