-- ==== Sys2Proof/Laws/Decode.lean ====
section
/-! SUPPORT. Small facts about mnemonics, digits and tokens (spec/30_encoding.md R60 to R62). -/

namespace Sys2Proof

@[simp] theorem mnemonicOf_text (m : Mnemonic) : mnemonicOf m.text = some m := by cases m <;> decide

theorem Mnemonic.mem_all (m : Mnemonic) : m ∈ Mnemonic.all := by cases m <;> decide

/-- A token is a mnemonic exactly when it is that mnemonic's text. -/
theorem mnemonicOf_eq_some {t : Text} {m : Mnemonic} : mnemonicOf t = some m ↔ t = m.text := by
  constructor
  · intro h
    have := List.find?_some h
    simpa [eq_comm] using this
  · rintro rfl; exact mnemonicOf_text m

theorem mnemonicOf_eq_none {t : Text} : mnemonicOf t = none ↔ ∀ m : Mnemonic, t ≠ m.text := by
  unfold mnemonicOf
  rw [List.find?_eq_none]
  exact ⟨fun h m e => by simpa [e] using h m m.mem_all, fun h m _ => by simpa using fun e => h m e.symm⟩

theorem Mnemonic.text_injective {m n : Mnemonic} (h : m.text = n.text) : m = n := by
  have := congrArg mnemonicOf h
  simpa using this

theorem Mnemonic.text_ne_nil (m : Mnemonic) : m.text ≠ [] := by cases m <;> decide

/-- No mnemonic holds white space. -/
theorem Mnemonic.text_no_whitespace (m : Mnemonic) : ∀ c ∈ m.text, isWhitespace c = false := by
  cases m <;> simp [Mnemonic.text] <;> decide

/-- The character of a digit. -/
theorem digitValue_ofNat {d : Nat} (h : d < 10) : digitValue (Char.ofNat (48 + d)) = some d := by
  interval_cases d <;> decide

/-- A digit is no white space and no sign. -/
theorem not_whitespace_of_digit {c : Char} {d : Nat} (h : digitValue c = some d) : isWhitespace c = false := by
  unfold digitValue at h
  split at h
  · rename_i hc
    simp only [isWhitespace, List.contains_eq_mem, decide_eq_false_iff_not, List.mem_cons, List.not_mem_nil]
    have := hc.1
    intro h
    rcases h with h | h | h | h | h | h | h <;> omega
  · cases h

@[simp] theorem consToken_nil (ts : List Text) : consToken [] ts = ts := rfl

theorem consToken_of_ne_nil {t : Text} (h : t ≠ []) (ts : List Text) : consToken t ts = t :: ts := by
  cases t with
  | nil => exact absurd rfl h
  | cons c cs => rfl

/-- Characters before white space belong to the token the text begins with. -/
theorem splitTokens_run (a s : Text) (h : ∀ c ∈ a, isWhitespace c = false) :
    splitTokens (a ++ s) = (a ++ (splitTokens s).1, (splitTokens s).2) := by
  induction a with
  | nil => rfl
  | cons c a ih =>
    have hc := h c List.mem_cons_self
    simp [splitTokens, ih fun d hd => h d (List.mem_cons_of_mem _ hd), hc]

/-- White space ends the token the text begins with, and the text after it has tokens of its own. -/
theorem splitTokens_whitespace {w : Char} (s : Text) (h : isWhitespace w = true) :
    splitTokens (w :: s) = ([], tokens s) := by
  simp [splitTokens, tokens, h]

/-! ## What reading an operand can do (R64 to R68) -/

/-- An integer operand that is read: its token, its value, and the value's range. -/
theorem readInteger_eq_ok {ops : List Text} {k : Nat} {v : Int} :
    readInteger ops k = .ok v ↔ ∃ t, ops[k - 1]? = some t ∧ integerOf t = some v ∧ InRange v := by
  unfold readInteger
  constructor
  · intro h
    split at h
    · cases h
    · split at h
      · cases h
      · split at h
        · cases h; exact ⟨_, ‹_›, ‹_›, ‹_›⟩
        · cases h
  · rintro ⟨t, ht, hv, hr⟩
    rw [ht]; dsimp only; rw [hv]; dsimp only; rw [if_pos hr]

/-- A register operand that is read is an integer operand with the register's index. -/
theorem readRegister_ok {ops : List Text} {k : Nat} {r : RegIdx} (h : readRegister ops k = .ok r) :
    readInteger ops k = .ok (r.val : Int) := by
  unfold readRegister at h
  split at h
  · cases h
  · rename_i v hv
    split at h
    · rename_i hr
      cases h
      rw [hv, Except.ok.injEq, Int.toNat_of_nonneg hr.1]
    · cases h

/-- An immediate operand that is read is an integer operand with the immediate's signed reading. -/
theorem readImmediate_ok {ops : List Text} {k : Nat} {w : Word} (h : readImmediate ops k = .ok w) :
    readInteger ops k = .ok w.toInt := by
  unfold readImmediate at h
  split at h
  · cases h
  · rename_i v hv
    cases h
    obtain ⟨-, -, -, hr⟩ := readInteger_eq_ok.1 hv
    rw [hv, Except.ok.injEq, BitVec.toInt_ofInt, Int.bmod_def]
    split <;> omega

/-- Three operands read in turn: each of them was read. -/
theorem read_three_ok {ε α β γ δ : Type} {f : α → β → γ → δ} {a : Except ε α} {b : Except ε β} {c : Except ε γ} {i : δ}
    (h : (do return f (← a) (← b) (← c)) = Except.ok i) :
    ∃ x y z, a = .ok x ∧ b = .ok y ∧ c = .ok z ∧ i = f x y z := by
  cases a <;> cases b <;> cases c <;> simp_all [bind, Except.bind, pure, Except.pure]

/-- Two operands read in turn: each of them was read. -/
theorem read_two_ok {ε α β δ : Type} {f : α → β → δ} {a : Except ε α} {b : Except ε β} {i : δ}
    (h : (do return f (← a) (← b)) = Except.ok i) : ∃ x y, a = .ok x ∧ b = .ok y ∧ i = f x y := by
  cases a <;> cases b <;> simp_all [bind, Except.bind, pure, Except.pure]

/-- The decoder on a line of a supported mnemonic. -/
theorem decode_of_tokens {src : Text} {m : Mnemonic} {ops : List Text} (h : tokens src = m.text :: ops) :
    decode src = match decodeOperands m ops with
      | .ok i => .instr i
      | .error (reason, k) => .invalid reason k := by
  cases hd : decodeOperands m ops <;> simp [decode, h, hd]

/-- The mnemonic of the instruction its operands were read for. -/
theorem decodeOperands_mnemonic {m : Mnemonic} {ops : List Text} {i : Instr} (h : decodeOperands m ops = .ok i) :
    i.written.mnemonic = m := by
  cases m <;> simp only [decodeOperands] at h <;>
    first
    | (obtain ⟨x, y, z, -, -, -, rfl⟩ := read_three_ok h; rfl)
    | (obtain ⟨x, y, -, -, rfl⟩ := read_two_ok h; rfl)

/-- A line that decodes to an instruction: its first token and its operands. -/
theorem decode_eq_instr {src : Text} {i : Instr} (h : decode src = .instr i) :
    ∃ ops, tokens src = i.written.mnemonic.text :: ops ∧ decodeOperands i.written.mnemonic ops = .ok i := by
  unfold decode at h
  split at h
  · cases h
  · rename_i t ops ht
    split at h
    · cases h
    · rename_i m hm
      split at h
      · rename_i j hj
        cases h
        have hmn := decodeOperands_mnemonic hj
        rw [hmn]
        exact ⟨ops, by rw [ht, mnemonicOf_eq_some.1 hm], hj⟩
      · cases h

/-! ## The digits of the canonical line -/

/-- Digits put before a text add their number's value to what is read before it. -/
theorem digitsValue_showDigits (fuel n : Nat) (hf : 0 < fuel) (hn : n < 10 ^ fuel) (acc : Text) (a : Nat) :
    ∃ k, k ≤ fuel ∧ digitsValue a (showDigits fuel n acc) = digitsValue (a * 10 ^ k + n) acc := by
  induction fuel generalizing n acc a with
  | zero => omega
  | succ fuel ih =>
    simp only [showDigits]
    split
    · rename_i h
      refine ⟨1, by omega, ?_⟩
      simp only [digitsValue, digitValue_ofNat h, pow_one, mul_comm]
    · rename_i h
      have hf' : 0 < fuel := by
        rcases fuel with _ | f
        · simp at hn; omega
        · omega
      obtain ⟨k, hk, e⟩ := ih (n / 10) hf' (by rw [pow_succ] at hn; omega) (Char.ofNat (48 + n % 10) :: acc) a
      refine ⟨k + 1, by omega, ?_⟩
      rw [e]
      simp only [digitsValue, digitValue_ofNat (Nat.mod_lt n (by omega : 10 > 0))]
      have hdm := Nat.div_add_mod n 10
      congr 1
      rw [pow_succ]
      nlinarith

/-- Every character put before a text of digits is a digit. -/
theorem showDigits_digits (fuel n : Nat) (acc : Text) (h : ∀ c ∈ acc, ∃ d, digitValue c = some d) :
    ∀ c ∈ showDigits fuel n acc, ∃ d, digitValue c = some d := by
  induction fuel generalizing n acc with
  | zero => exact h
  | succ fuel ih =>
    simp only [showDigits]
    split
    · rename_i hn
      intro c hc
      rcases List.mem_cons.1 hc with rfl | hc
      · exact ⟨n, digitValue_ofNat hn⟩
      · exact h c hc
    · refine ih _ _ fun c hc => ?_
      rcases List.mem_cons.1 hc with rfl | hc
      · exact ⟨_, digitValue_ofNat (Nat.mod_lt n (by omega))⟩
      · exact h c hc

theorem showDigits_ne_nil (fuel n : Nat) (acc : Text) (h : 0 < fuel ∨ acc ≠ []) : showDigits fuel n acc ≠ [] := by
  induction fuel generalizing n acc with
  | zero => simpa [showDigits] using h
  | succ fuel ih =>
    simp only [showDigits]
    split
    · simp
    · exact ih _ _ (.inr (by simp))

/-- Ten digits spell every number below `10^10`. -/
theorem naturalOf_showDigits {n : Nat} (h : n < 10 ^ 10) : naturalOf (showDigits 10 n []) = some n := by
  unfold naturalOf
  rw [if_neg (showDigits_ne_nil _ _ _ (.inl (by omega)))]
  obtain ⟨k, -, e⟩ := digitsValue_showDigits 10 n (by omega) h [] 0
  rw [e]; simp [digitsValue]

/-- A text of digits has no sign to read. -/
theorem integerOf_digits {t : Text} (h : ∀ c ∈ t, ∃ d, digitValue c = some d) :
    integerOf t = Option.map Int.ofNat (naturalOf t) := by
  unfold integerOf
  split
  · have := h '+' (by simp); revert this; simp [digitValue]
  · have := h '-' (by simp); revert this; simp [digitValue]
  · rfl

/-- An integer in range is read back from its canonical token. -/
theorem integerOf_showInteger {v : Int} (h : InRange v) : integerOf (showInteger v) = some v := by
  have hb : v.natAbs < 10 ^ 10 := by have := h.1; have := h.2; omega
  unfold showInteger
  split
  · simp only [integerOf, naturalOf_showDigits hb, Option.map_some, Int.ofNat_eq_natCast]; congr 1; omega
  · rw [integerOf_digits (showDigits_digits _ _ _ (by simp)), naturalOf_showDigits hb]
    simp only [Option.map_some, Int.ofNat_eq_natCast]; congr 1; omega

theorem showInteger_no_whitespace (v : Int) : ∀ c ∈ showInteger v, isWhitespace c = false := by
  have hd : ∀ c ∈ showDigits 10 v.natAbs [], isWhitespace c = false := fun c hc => by
    obtain ⟨d, hd⟩ := showDigits_digits 10 v.natAbs [] (by simp) c hc
    exact not_whitespace_of_digit hd
  unfold showInteger
  split
  · intro c hc
    rcases List.mem_cons.1 hc with rfl | hc
    · decide
    · exact hd c hc
  · exact hd

theorem showInteger_ne_nil (v : Int) : showInteger v ≠ [] := by
  unfold showInteger
  split
  · simp
  · exact showDigits_ne_nil _ _ _ (.inl (by omega))

end Sys2Proof
end

