-- ==== Sys2Proof/Laws/Engine.lean ====
section
/-! SUPPORT. What one step can do, said once (spec/40_engine.md R92 to R95, R101): each instruction commits one
effect, and a step is the halt, the fault, the no-op or that commit. -/

namespace Sys2Proof.Machine

/-- The effect of each instruction (R94). -/
def effectOf : Instr → State → Effect
  | .add rd rs1 rs2, s => { reg := some (rd, s.readReg rs1 + s.readReg rs2) }
  | .sub rd rs1 rs2, s => { reg := some (rd, s.readReg rs1 - s.readReg rs2) }
  | .and rd rs1 rs2, s => { reg := some (rd, s.readReg rs1 &&& s.readReg rs2) }
  | .or rd rs1 rs2, s => { reg := some (rd, s.readReg rs1 ||| s.readReg rs2) }
  | .addi rd rs1 imm, s => { reg := some (rd, s.readReg rs1 + imm) }
  | .lw rd imm rs1, s =>
    let ea := effectiveAddress s rs1 imm
    { reg := some (rd, (loadValue ea (s.readMem ea)).1), diag := (loadValue ea (s.readMem ea)).2 }
  | .sw rs2 imm rs1, s => { mem := some (effectiveAddress s rs1 imm, .num (s.readReg rs2).toInt) }
  | .beq rs1 rs2 imm, s => branchEffect s (wordsEqual (s.readReg rs1) (s.readReg rs2)) imm
  | .bne rs1 rs2 imm, s => branchEffect s (!wordsEqual (s.readReg rs1) (s.readReg rs2)) imm
  | .jal rd imm, s => { reg := some (rd, s.pc + 4), redirect := some (s.pc + imm) }

/-- Every meaning commits its effect. -/
theorem exec_eq_commit (i : Instr) (s : State) : exec i s = .next (s.commit (effectOf i s)) := by
  cases i <;> rfl

/-- The diagnostic of a load names the address it tried (R26). -/
theorem loadValue_diag_addr {ea : Int} {x : Option Slot} {d : Diagnostic} (h : (loadValue ea x).2 = some d) :
    d.addr = ea := by
  unfold loadValue at h
  split at h <;> (try split at h) <;> simp at h <;> subst h <;> rfl

/-- Only LW has a diagnostic. -/
theorem effectOf_diag {i : Instr} {s : State} {d : Diagnostic} (h : (effectOf i s).diag = some d) :
    ∃ rd imm rs1, i = .lw rd imm rs1 ∧ d.addr = effectiveAddress s rs1 imm := by
  cases i with
  | lw rd imm rs1 => exact ⟨rd, imm, rs1, rfl, loadValue_diag_addr h⟩
  | _ => simp [effectOf, branchEffect] at h

/-- Only SW has a memory write. -/
theorem effectOf_mem {i : Instr} {s : State} {a : Int} {c : Content} (h : (effectOf i s).mem = some (a, c)) :
    ∃ rs2 imm rs1, i = .sw rs2 imm rs1 ∧ a = effectiveAddress s rs1 imm ∧ c = .num (s.readReg rs2).toInt := by
  cases i with
  | sw rs2 imm rs1 => simp [effectOf] at h; exact ⟨rs2, imm, rs1, rfl, h.1.symm, h.2.symm⟩
  | _ => simp [effectOf, branchEffect] at h

/-- A word names an address in range (R10). -/
theorem inRange_toInt (w : Word) : InRange w.toInt := by
  have h1 := BitVec.le_toInt w
  have h2 := BitVec.toInt_lt (x := w)
  simp at h1 h2
  exact ⟨h1, by omega⟩

theorem fetchLine_eq_some {s : State} {src : Text} :
    fetchLine s = some src ↔ s.pc ≠ 0xFFFFFFFF ∧ ∃ enc, s.readMem (Word.addr s.pc) = some (.code enc src) := by
  unfold fetchLine
  split
  · rename_i h; simp [h]
  · rename_i h
    split <;> rename_i hm <;> simp_all

theorem fetchLine_eq_none {s : State} : fetchLine s = none ↔ s.HaltCondition := by
  unfold fetchLine State.HaltCondition
  split
  · rename_i h; simp [h]
  · rename_i h
    split <;> rename_i hm <;> simp_all

theorem runsLine_iff {s : State} {src : Text} : s.RunsLine src ↔ s.run = .running ∧ fetchLine s = some src := by
  rw [fetchLine_eq_some]; rfl

/-- A step of a RUNNING machine is the engine's step. -/
theorem step_running {s : State} (h : s.run = .running) : step s = engineStep s := by
  unfold step; rw [h]

/-- What a step that answers a next state did. -/
theorem step_cases {s t : State} (h : step s = .next t) :
    s.run = .running ∧
    ((fetchLine s = none ∧ t = s.halt) ∨
     ∃ src, fetchLine s = some src ∧
      ((decode src = .unknown ∧ t = s.commit {}) ∨
       (∃ i, decode src = .instr i ∧ t = s.commit (effectOf i s)) ∨
       ∃ r k, decode src = .invalid r k ∧ t = s.raiseInvalidOperand r k src)) := by
  unfold step at h
  split at h
  · cases h
  · cases h
  · refine ⟨‹_›, ?_⟩
    unfold engineStep at h
    split at h
    · cases h; exact .inl ⟨‹_›, rfl⟩
    · rename_i src hsrc
      refine .inr ⟨src, hsrc, ?_⟩
      unfold execDecoded at h
      split at h
      · cases h; exact .inl ⟨‹_›, rfl⟩
      · rw [exec_eq_commit] at h; cases h; exact .inr (.inl ⟨_, ‹_›, rfl⟩)
      · cases h; exact .inr (.inr ⟨_, _, ‹_›, rfl⟩)

/-- A step of a machine that runs a line, by what the line decodes to. -/
theorem step_of_runsLine {s : State} {src : Text} (h : s.RunsLine src) :
    step s = execDecoded (decode src) src s := by
  obtain ⟨hr, hf⟩ := runsLine_iff.1 h
  rw [step_running hr]; unfold engineStep; rw [hf]

end Sys2Proof.Machine
end

