-- ==== Sys2Proof/Laws/HostOps.lean ====
section
/-! SUPPORT. What the host's two loads do to memory, said once, that they keep the canonical form, and what each
admitted host operation did (spec/70_reset_and_hazards.md R190, R193 to R195, R198; spec/40_engine.md R98). -/

namespace Sys2Proof.Machine

/-- An address that is no line's keeps its content. -/
theorem writeLines_read_other (lines : List Text) (m : Memory) (a : Int) (d : Nat) (b : Int)
    (h : ∀ i : Nat, i < lines.length → b ≠ a + 4 * i) : (writeLines m a d lines).read b = m.read b := by
  induction lines generalizing m a d with
  | nil => rfl
  | cons l ls ih =>
    have h0 := h 0 (by simp)
    rw [writeLines, ih _ _ _ fun i hi => ?_, Memory.read_write, if_neg (by simpa using h0)]
    have := h (i + 1) (by simp only [List.length_cons]; omega)
    push_cast at this
    simp only [Config.codeStride]; omega

/-- Line `i` stands at `a + 4*i`, beside the encoder's outcome for it. -/
theorem writeLines_read_line (lines : List Text) (m : Memory) (a : Int) (d i : Nat) (h : i < lines.length) :
    (writeLines m a d lines).read (a + 4 * i) = some (codeSlot (Config.unspecEncoding (d + i)) lines[i]) := by
  induction lines generalizing m a d i with
  | nil => simp at h
  | cons l ls ih =>
    rw [writeLines]
    cases i with
    | zero =>
      rw [writeLines_read_other, Memory.read_write, if_pos (by simp)]; · rfl
      intro j _; simp only [Config.codeStride]; push_cast; omega
    | succ i =>
      have := ih (m.write a (codeSlot (Config.unspecEncoding d) l)) (a + Config.codeStride) (d + 1) i (by simpa using h)
      rw [show a + 4 * ((i + 1 : Nat) : Int) = a + Config.codeStride + 4 * i by simp only [Config.codeStride]; push_cast; omega,
        this, show d + 1 + i = d + (i + 1) by omega]
      rfl

/-- The lines' addresses being in range, loading them keeps the canonical form. -/
theorem writeLines_wf (lines : List Text) {m : Memory} (hm : m.wf) (a : Int) (d : Nat)
    (h : ∀ i : Nat, i < lines.length → InRange (a + 4 * i)) : (writeLines m a d lines).wf := by
  induction lines generalizing m a d with
  | nil => exact hm
  | cons l ls ih =>
    refine ih (Memory.wf_write hm (by simpa using h 0 (by simp)) _) _ _ fun i hi => ?_
    have := h (i + 1) (by simp only [List.length_cons]; omega)
    push_cast at this
    simp only [Config.codeStride]
    exact ⟨by omega, by omega⟩

/-- The loader's range check puts every line's address in range. -/
theorem programInRange_line {n : Nat} {a : Int} (h : programInRange n a = true) (i : Nat) (hi : i < n) :
    InRange (a + 4 * i) := by
  simp only [programInRange, Config.codeStride, Bool.and_eq_true, Bool.or_eq_true, decide_eq_true_eq, beq_iff_eq] at h
  exact ⟨by omega, by omega⟩

/-- An address that no entry names keeps its content. -/
theorem writeEntries_read_other (es : List (Int × Content)) (m : Memory) (b : Int) (h : ∀ e ∈ es, e.1 ≠ b) :
    (writeEntries m es).read b = m.read b := by
  induction es generalizing m with
  | nil => rfl
  | cons e es ih =>
    obtain ⟨a, c⟩ := e
    rw [writeEntries, ih _ fun e he => h e (List.mem_cons_of_mem _ he), Memory.read_write,
      if_neg fun e => h (a, c) List.mem_cons_self e.symm]

/-- Addresses being unique, each entry is the data slot at its address. -/
theorem writeEntries_read_entry (es : List (Int × Content)) (m : Memory) {a : Int} {c : Content}
    (hu : uniqueAddresses es = true) (h : (a, c) ∈ es) : (writeEntries m es).read a = some (.data c) := by
  induction es generalizing m with
  | nil => simp at h
  | cons e es ih =>
    obtain ⟨b, x⟩ := e
    simp only [uniqueAddresses, Bool.and_eq_true, List.all_eq_true, decide_eq_true_eq] at hu
    rcases List.mem_cons.1 h with e | h
    · cases e
      rw [writeEntries, writeEntries_read_other _ _ _ hu.1, Memory.read_write, if_pos rfl]
    · exact ih _ hu.2 h

/-- The entries' addresses being in range, loading them keeps the canonical form. -/
theorem writeEntries_wf (es : List (Int × Content)) {m : Memory} (hm : m.wf) (h : ∀ e ∈ es, InRange e.1) :
    (writeEntries m es).wf := by
  induction es generalizing m with
  | nil => exact hm
  | cons e es ih =>
    exact ih (Memory.wf_write hm (h e List.mem_cons_self) _) fun e he => h e (List.mem_cons_of_mem _ he)

/-! ## What each admitted operation did -/

/-- Out of RUNNING, the host's reset is `hostReset`. -/
theorem hostOp_reset_of_not_running {s : State} (h : s.run ≠ .running) : hostOp .reset s = .next (hostReset s) :=
  if_neg h

/-- In RUNNING, the host's reset is refused. -/
theorem hostOp_reset_of_running {s : State} (h : s.run = .running) : hostOp .reset s = .refused .runInProgress :=
  if_pos h

/-- An admitted reset: its condition and its next state. -/
theorem hostOp_reset_next {s t : State} (h : hostOp .reset s = .next t) : s.run ≠ .running ∧ t = hostReset s := by
  simp only [hostOp] at h
  split at h
  · cases h
  · cases h; exact ⟨‹_›, rfl⟩

/-- An admitted load of instructions: its conditions and its next state. -/
theorem loadInstructions_next {lines : List Text} {a : Int} {s t : State} (h : loadInstructions lines a s = .next t) :
    s.run ≠ .running ∧ lines.all nonBlankLine = true ∧ programInRange lines.length a = true ∧
      t = { s with
        pc := Word.ofInteger a
        mem := writeLines s.mem a s.draws lines
        draws := s.draws + lines.length } := by
  unfold loadInstructions at h
  split at h
  · cases h
  · split at h
    · cases h
    · split at h
      · cases h
      · rename_i h1 h2 h3
        cases h
        exact ⟨h1, by simpa using h2, by simpa using h3, rfl⟩

/-- An admitted load of data: its conditions and its next state. -/
theorem loadData_next {es : List (Int × Content)} {s t : State} (h : loadData es s = .next t) :
    s.run ≠ .running ∧ uniqueAddresses es = true ∧ (∀ e ∈ es, InRange e.1) ∧ t = s.setMem (writeEntries s.mem es) := by
  unfold loadData at h
  split at h
  · cases h
  · split at h
    · cases h
    · split at h
      · cases h
      · rename_i h1 h2 h3
        cases h
        exact ⟨h1, by simpa using h2, by simpa using h3, rfl⟩

/-- An admitted register write of the host. -/
theorem setRegister_next {i : RegIdx} {v : Word} {s t : State} (h : setRegister i v s = .next t) :
    s.run ≠ .running ∧ t = s.writeReg i v := by
  unfold setRegister at h
  split at h
  · cases h
  · cases h; exact ⟨‹_›, rfl⟩

/-- An admitted run: it started one, or had no effect. -/
theorem hostRun_next {p : Int} {s t : State} (h : hostRun p s = .next t) :
    (s.run = .halted ∧ InRange p ∧ t = (s.setPc (Word.ofInteger p)).setRun .running) ∨ (s.run = .faulted ∧ t = s) := by
  unfold hostRun at h
  split at h
  · cases h
  · cases h; exact .inr ⟨‹_›, rfl⟩
  · rename_i hr
    split at h
    · cases h; exact .inl ⟨hr, ‹_›, rfl⟩
    · cases h

/-- No operation of the host is admitted while RUNNING (R198). -/
theorem hostOp_next_not_running {op : HostOp} {s t : State} (h : hostOp op s = .next t) : s.run ≠ .running := by
  cases op with
  | reset => exact (hostOp_reset_next h).1
  | loadInstructions lines a => exact (loadInstructions_next h).1
  | loadData es => exact (loadData_next h).1
  | setRegister i v => exact (setRegister_next h).1
  | run p =>
    rcases hostRun_next h with ⟨hr, -, -⟩ | ⟨hr, -⟩ <;> simp [hr]

end Sys2Proof.Machine
end

