-- ==== Sys2Proof/Laws/PerInstr.lean ====
section
/-! SUPPORT. The per-instruction family `WrittenWf`: every instruction, as its form writes it, passes the
operand checks of spec/30_encoding.md R63 to R66. -/

namespace Sys2Proof.Laws

theorem wfInteger_register (r : RegIdx) : wfInteger (r.val : Int) = true := by
  have := r.isLt; simp [wfInteger]; omega

theorem wfRegister_register (r : RegIdx) : wfRegister (r.val : Int) = true := by
  have := r.isLt; simp [wfRegister]; omega

theorem wfInteger_word (w : Word) : wfInteger w.toInt = true := by
  have h1 := BitVec.le_toInt w
  have h2 := BitVec.toInt_lt (x := w)
  simp at h1 h2
  simp [wfInteger]; omega

/-- The family's statement. -/
def WrittenWf.Statement (i : Instr) : Prop := i.written.wf = true

theorem WrittenWf.add (rd : RegIdx) (rs1 : RegIdx) (rs2 : RegIdx) : WrittenWf.Statement (.add rd rs1 rs2) := by
  simp [WrittenWf.Statement, Instr.written, Written.wf, Mnemonic.roles, wfOperands, wfOperand, wfInteger_register,
    wfRegister_register]

theorem WrittenWf.sub (rd : RegIdx) (rs1 : RegIdx) (rs2 : RegIdx) : WrittenWf.Statement (.sub rd rs1 rs2) := by
  simp [WrittenWf.Statement, Instr.written, Written.wf, Mnemonic.roles, wfOperands, wfOperand, wfInteger_register,
    wfRegister_register]

theorem WrittenWf.and (rd : RegIdx) (rs1 : RegIdx) (rs2 : RegIdx) : WrittenWf.Statement (.and rd rs1 rs2) := by
  simp [WrittenWf.Statement, Instr.written, Written.wf, Mnemonic.roles, wfOperands, wfOperand, wfInteger_register,
    wfRegister_register]

theorem WrittenWf.or (rd : RegIdx) (rs1 : RegIdx) (rs2 : RegIdx) : WrittenWf.Statement (.or rd rs1 rs2) := by
  simp [WrittenWf.Statement, Instr.written, Written.wf, Mnemonic.roles, wfOperands, wfOperand, wfInteger_register,
    wfRegister_register]

theorem WrittenWf.addi (rd : RegIdx) (rs1 : RegIdx) (imm : Word) : WrittenWf.Statement (.addi rd rs1 imm) := by
  simp [WrittenWf.Statement, Instr.written, Written.wf, Mnemonic.roles, wfOperands, wfOperand, wfInteger_register,
    wfRegister_register, wfInteger_word]

theorem WrittenWf.lw (rd : RegIdx) (imm : Word) (rs1 : RegIdx) : WrittenWf.Statement (.lw rd imm rs1) := by
  simp [WrittenWf.Statement, Instr.written, Written.wf, Mnemonic.roles, wfOperands, wfOperand, wfInteger_register,
    wfRegister_register, wfInteger_word]

theorem WrittenWf.sw (rs2 : RegIdx) (imm : Word) (rs1 : RegIdx) : WrittenWf.Statement (.sw rs2 imm rs1) := by
  simp [WrittenWf.Statement, Instr.written, Written.wf, Mnemonic.roles, wfOperands, wfOperand, wfInteger_register,
    wfRegister_register, wfInteger_word]

theorem WrittenWf.beq (rs1 : RegIdx) (rs2 : RegIdx) (imm : Word) : WrittenWf.Statement (.beq rs1 rs2 imm) := by
  simp [WrittenWf.Statement, Instr.written, Written.wf, Mnemonic.roles, wfOperands, wfOperand, wfInteger_register,
    wfRegister_register, wfInteger_word]

theorem WrittenWf.bne (rs1 : RegIdx) (rs2 : RegIdx) (imm : Word) : WrittenWf.Statement (.bne rs1 rs2 imm) := by
  simp [WrittenWf.Statement, Instr.written, Written.wf, Mnemonic.roles, wfOperands, wfOperand, wfInteger_register,
    wfRegister_register, wfInteger_word]

theorem WrittenWf.jal (rd : RegIdx) (imm : Word) : WrittenWf.Statement (.jal rd imm) := by
  simp [WrittenWf.Statement, Instr.written, Written.wf, Mnemonic.roles, wfOperands, wfOperand, wfInteger_register,
    wfRegister_register, wfInteger_word]

end Sys2Proof.Laws
end

