-- ==== Sys2Proof/Tests/Slice0.lean ====
section
/-! SUPPORT. Small tests. Expected results are the spec's own: spec/95_test_vectors.md (its number stands with each
test) and the examples of the rules. Each runs one decoding, one encoding or one step. -/

namespace Sys2Proof.Tests

open Sys2Proof.Machine

/-! ## Helpers -/

/-- A RUNNING machine at `pc` with the line there, other slots beside it, and two registers set. -/
def machine (pc : Word) (line : String) (more : Memory) (i : RegIdx) (v : Word) (j : RegIdx) (w : Word) : State :=
  ((({ State.reset with
    pc := pc
    run := .running
    mem := more.write pc.toInt (.code .empty line.toList) } : State).writeReg i v).writeReg j w)

/-- The next state, if the step answers one. -/
def next (s : State) : Option State :=
  match step s with
  | .next t => some t
  | .fault _ => none
  | .refused _ => none

/-- A register and the PC after one step. -/
def regPc (r : RegIdx) (s : State) : Option (Int × Int) := (next s).map fun t => ((t.readReg r).toInt, t.pc.toInt)

/-- A register, the diagnostics log and the PC after one step. -/
def regDiag (r : RegIdx) (s : State) : Option (Int × List Diagnostic × Int) :=
  (next s).map fun t => ((t.readReg r).toInt, t.diag, t.pc.toInt)

/-- The run state, the fault record, the PC and the registers' being unchanged after one step. -/
def faultOf (s : State) : Option (RunState × Option FaultRecord × Int × Bool) :=
  (next s).map fun t => (t.run, t.fault, t.pc.toInt, t.regs == s.regs)

/-! ## WellFormed: an ill-formed term for each check -/

theorem test_wf_register_too_large : (⟨.add, [1, 2, 32]⟩ : Written).wf = false := by decide
theorem test_wf_register_negative : (⟨.add, [1, -1, 2]⟩ : Written).wf = false := by decide
theorem test_wf_integer_too_large : (⟨.addi, [1, 0, 2147483648]⟩ : Written).wf = false := by decide
theorem test_wf_integer_too_small : (⟨.jal, [1, -2147483649]⟩ : Written).wf = false := by decide
theorem test_wf_operand_missing : (⟨.lw, [1, 8]⟩ : Written).wf = false := by decide
theorem test_wf_accepts : (⟨.sw, [31, -2147483648, 0, 99]⟩ : Written).wf = true := by decide

/-! ## Decoding: lines written out from the forms of R63, one for each constructor -/

theorem test_decode_add : decode "ADD 1 2 3".toList = .instr (.add 1 2 3) := by decide
theorem test_decode_sub : decode "SUB 3 1 2".toList = .instr (.sub 3 1 2) := by decide
theorem test_decode_and : decode "AND 3 1 0".toList = .instr (.and 3 1 0) := by decide
theorem test_decode_or : decode "OR 31 30 29".toList = .instr (.or 31 30 29) := by decide
theorem test_decode_addi : decode "ADDI 1 0 -2147483648".toList = .instr (.addi 1 0 0x80000000) := by decide
theorem test_decode_lw : decode "LW 6 4 5".toList = .instr (.lw 6 4 5) := by decide
theorem test_decode_sw : decode "SW 1 8 2".toList = .instr (.sw 1 8 2) := by decide
theorem test_decode_beq : decode "BEQ 1 2 -40".toList = .instr (.beq 1 2 0xFFFFFFD8) := by decide
theorem test_decode_bne : decode "BNE 1 0 -8".toList = .instr (.bne 1 0 0xFFFFFFF8) := by decide
theorem test_decode_jal : decode "JAL 5 -12".toList = .instr (.jal 5 0xFFFFFFF4) := by decide
-- L2.1: an explicit plus sign, leading zeros; R61: any white space; L2.4: extra tokens and a comment
theorem test_decode_plus : decode "ADDI 1 0 +5".toList = .instr (.addi 1 0 5) := by decide
theorem test_decode_leading_zero : decode "\tADDI  1\r0 010\n".toList = .instr (.addi 1 0 10) := by decide
theorem test_decode_extra : decode "ADD 1 2 3 # sum".toList = .instr (.add 1 2 3) := by decide
-- L2.4
theorem test_decode_unknown : decode "FOO 1 2 3".toList = .unknown := by decide
theorem test_decode_lower_case : decode "add 1 0 0".toList = .unknown := by decide
theorem test_decode_comment : decode "# comment".toList = .unknown := by decide
theorem test_decode_blank : decode " \t ".toList = .unknown := by decide
theorem test_decode_missing : decode "JAL 1".toList = .invalid .missingOperand 2 := by decide
theorem test_decode_prefix_x : decode "ADD 1 2 x3".toList = .invalid .notDecimal 3 := by decide
theorem test_decode_comma : decode "ADD 1, 2, 3".toList = .invalid .notDecimal 1 := by decide
theorem test_decode_parenthesis : decode "LW 1 8(2)".toList = .invalid .notDecimal 2 := by decide
theorem test_decode_leftmost : decode "ADD 1 -1 40".toList = .invalid .registerOutOfRange 2 := by decide
theorem test_decode_range_first : decode "ADD 40 x 1".toList = .invalid .registerOutOfRange 1 := by decide
theorem test_decode_immediate_range : decode "ADDI 1 0 2147483648".toList = .invalid .intOutOfRange 3 := by decide
theorem test_decode_register_int_range : decode "ADD 4294967297 2 3".toList = .invalid .intOutOfRange 1 := by decide
theorem test_decode_bare_sign : decode "ADDI 1 0 -".toList = .invalid .notDecimal 3 := by decide

/-- R83: the canonical line. -/
theorem test_encode_line : encode (.lw 6 0xFFFFFFFF 5) = "LW 6 -1 5".toList := by decide

/-! ## The instruction encoder (L2.5) -/

theorem test_encoder_addi : encodeLine "ADDI 1 0 10".toList = .word 0x00A00093 := by decide
theorem test_encoder_negative : encodeLine "ADDI 1 0 -5".toList = .word 0xFFB00093 := by decide
theorem test_encoder_truncates : encodeLine "ADDI 1 0 5000".toList = .word 0x38800093 := by decide
theorem test_encoder_all_ones : encodeLine "ADDI 31 31 -1".toList = .word 0xFFFF8F93 := by decide
theorem test_encoder_register_33 : encodeLine "ADDI 33 0 10".toList = .word 0x00A00093 := by decide
theorem test_encoder_register_minus_1 : encodeLine "ADDI -1 0 0".toList = .word 0x00000F93 := by decide
theorem test_encoder_unspec_missing : encodeLine "ADDI 1 0".toList = .unspec := by decide
theorem test_encoder_unspec_text : encodeLine "ADDI 1 0 x".toList = .unspec := by decide
theorem test_encoder_empty : encodeLine "ADD 1 2 3".toList = .empty := by decide
theorem test_encoder_lower_case : encodeLine "addi 1 0 10".toList = .empty := by decide

/-- R72: the word of `ADDI 1 0 10` read as the opcode table numbers it, and as the first step after reset. -/
theorem test_table_word : decodeTableWord 32 0x00A00093 = some (.addi 1 0 10) := by decide
theorem test_table_word_negative : decodeTableWord 32 0xFFB00093 = some (.addi 1 0 0xFFFFFFFB) := by decide
theorem test_table_word_other : decodeTableWord 32 0x00208033 = none := by decide
theorem test_fetch_word : regPc 1 (State.reset.withFetchWord 32 0x00A00093) = some (10, 4) := by decide

/-! ## One step of each instruction (L2.1 to L2.3) -/

theorem test_add_wraps : regPc 1 (machine 0 "ADD 1 2 3" [] 2 2147483647 3 1) = some (-2147483648, 4) := by decide
theorem test_add_same_register : regPc 1 (machine 0 "ADD 1 1 1" [] 1 21 2 0) = some (42, 4) := by decide
theorem test_sub_order : regPc 3 (machine 0 "SUB 3 1 2" [] 1 3 2 10) = some (-7, 4) := by decide
theorem test_sub_wraps : regPc 3 (machine 0 "SUB 3 1 2" [] 1 0x80000000 2 1) = some (2147483647, 4) := by decide
theorem test_and_negative : regPc 3 (machine 0 "AND 3 1 2" [] 1 0xFFFFFFF8 2 12) = some (8, 4) := by decide
theorem test_or_negative : regPc 3 (machine 0 "OR 3 1 2" [] 1 0xFFFFFFF8 2 3) = some (-5, 4) := by decide
theorem test_addi_full_immediate : regPc 1 (machine 0 "ADDI 1 0 5000" [] 2 0 3 0) = some (5000, 4) := by decide
theorem test_addi_x0 : regPc 0 (machine 0 "ADDI 0 0 5" [] 2 0 3 0) = some (0, 4) := by decide
theorem test_lw_base_overwritten :
    regDiag 5 (machine 0 "LW 5 0 5" [(300, .data (.num (-1)))] 5 300 1 0) = some (-1, [], 4) := by decide
theorem test_lw_address_wraps :
    regDiag 6 (machine 0 "LW 6 1 5" [(-2147483648, .data (.num 9))] 5 2147483647 1 0) = some (9, [], 4) := by decide
theorem test_sw_signed_value :
    (next (machine 0 "SW 1 8 2" [] 1 0xFFFFFFF9 2 200)).map (fun t => (t.readMem 208, t.pc.toInt)) =
      some (some (.data (.num (-7))), 4) := by decide
theorem test_sw_over_code :
    (next (machine 0 "SW 1 12 0" [(12, .code .empty "ADDI 3 0 1".toList)] 1 77 2 0)).map (·.readMem 12) =
      some (some (.data (.num 77))) := by decide
theorem test_beq_taken : regPc 1 (machine 100 "BEQ 1 2 -40" [] 1 7 2 7) = some (7, 60) := by decide
theorem test_beq_not_taken : regPc 1 (machine 100 "BEQ 1 2 -40" [] 1 7 2 8) = some (7, 104) := by decide
theorem test_bne_taken : regPc 1 (machine 100 "BNE 1 2 -40" [] 1 7 2 8) = some (7, 60) := by decide
theorem test_bne_not_taken : regPc 1 (machine 100 "BNE 1 2 -40" [] 1 7 2 7) = some (7, 104) := by decide
theorem test_jal_link : regPc 5 (machine 32 "JAL 5 -12" [] 1 0 2 0) = some (36, 20) := by decide
theorem test_jal_wraps : regPc 1 (machine 2147483644 "JAL 1 4" [] 2 0 3 0) = some (-2147483648, -2147483648) := by decide

/-! ## Engine, faults and host operations (L2.4, P6, P7) -/

theorem test_unknown : regPc 1 (machine 8 "FOO 1 2 3" [] 1 7 2 0) = some (7, 12) := by decide
theorem test_fault_record :
    faultOf (machine 4 "ADD 2 1" [] 1 5 2 0) =
      some (.faulted, some ⟨.missingOperand, 3, 4, "ADD 2 1".toList⟩, 4, true) := by decide
theorem test_halt_sentinel :
    (next (machine 0xFFFFFFFF "ADDI 1 0 1" [] 2 0 3 0)).map (fun t => (t.run, t.readReg 1, t.pc)) =
      some (.halted, 0, 0xFFFFFFFF) := by decide
theorem test_halt_data_slot :
    (next { machine 0 "NOP" [(4, .data (.num 1))] 1 0 2 0 with pc := 4 }).map (·.run) = some .halted := by decide
theorem test_no_step_after_reset : next State.reset = none := by decide

/-- L1.4, the boot sequence of R197 and its two steps: load, set two registers, run, `ADD 1 2 3`, halt. -/
def booted : State :=
  { State.reset with
    pc := 0
    mem := [(0, .code .empty "ADD 1 2 3".toList)]
    run := .running
    regs := ((State.reset.writeReg 2 4).writeReg 3 5).regs
    draws := 1 }

/-- The host's operations, one after another. -/
def hostOps : List HostOp → State → Option State
  | [], s => some s
  | op :: ops, s =>
    match hostOp op s with
    | .next t => hostOps ops t
    | .fault _ => none
    | .refused _ => none

theorem test_boot_sequence :
    hostOps [.loadInstructions ["ADD 1 2 3".toList] 0, .setRegister 2 4, .setRegister 3 5, .run 0] State.reset =
      some booted := by decide
theorem test_end_to_end :
    (let r := runLoop 5 booted; (r.state.readReg 1, r.state.pc, r.state.run, r.steps, r.ended)) =
      (9, 4, .halted, 1, true) := by decide
theorem test_load_refuses_blank_line :
    hostOps [.loadInstructions ["ADD 1 2 3".toList, " ".toList] 0] State.reset = none := by decide
theorem test_load_refuses_address :
    hostOps [.loadInstructions ["NOP".toList, "NOP".toList] 2147483644] State.reset = none := by decide
theorem test_data_refuses_duplicate :
    hostOps [.loadData [(1, .num 1), (1, .malformed)]] State.reset = none := by decide
theorem test_running_refuses_load : hostOps [.loadData [(1, .num 1)]] booted = none := by decide
-- D18: reset while RUNNING; R190: after the run
theorem test_running_refuses_reset : hostOps [.reset] booted = none := by decide
theorem test_reset_after_run : (hostOps [.reset] (booted.setRun .halted)).map (fun t => (t.readReg 2, t.mem, t.run)) =
    some (0, [], .halted) := by decide

/-! ## Witnesses: states and operands that meet the hypotheses of the statements -/

/-- A machine that runs `line` at 0, for statements with `RunsLine`. -/
theorem witness_runs (line : String) (more : Memory) (v w : Word) :
    (machine 0 line more 1 v 2 w).RunsLine line.toList := by
  refine ⟨by simp [machine], by simp [machine], .empty, ?_⟩
  simp [machine, State.readMem, Memory.read_write]

/-- EncodingIs: lines that decode to each instruction of the ten statements (AddWritesTheWrappedSum and the rest). -/
theorem witness_encoding :
    decode "ADD 0 31 3".toList = .instr (.add 0 31 3) ∧ decode "SUB 0 31 3".toList = .instr (.sub 0 31 3) ∧
    decode "AND 0 31 3".toList = .instr (.and 0 31 3) ∧ decode "OR 0 31 3".toList = .instr (.or 0 31 3) ∧
    decode "ADDI 0 31 3".toList = .instr (.addi 0 31 3) ∧ decode "LW 0 31 3".toList = .instr (.lw 0 31 3) ∧
    decode "SW 0 31 3".toList = .instr (.sw 0 31 3) ∧ decode "BEQ 0 31 3".toList = .instr (.beq 0 31 3) ∧
    decode "BNE 0 31 3".toList = .instr (.bne 0 31 3) ∧ decode "JAL 0 31".toList = .instr (.jal 0 31) := by
  decide

/-- AddiAddsTheFullImmediate, MalformedAddiLineIsUnspec: a malformed ADDI line. -/
theorem witness_malformed_addi : tokens "ADDI 1 0".toList = Mnemonic.addi.text :: ["1".toList, "0".toList] ∧
    ¬ (OperandReadable ["1".toList, "0".toList] 1 ∧ OperandReadable ["1".toList, "0".toList] 2 ∧
      OperandReadable ["1".toList, "0".toList] 3) := by
  refine ⟨by decide, fun h => ?_⟩
  obtain ⟨t, v, h, -⟩ := h.2.2
  cases h

/-- LwLoadsTheSlotOrLogsADiagnostic: each clause at a boundary, the kinds of content excluding each other. -/
theorem witness_lw_largest :
    regDiag 6 (machine 0 "LW 6 0 5" [(1000, .data (.num 2147483647))] 5 1000 6 1) = some (2147483647, [], 4) := by decide
theorem witness_lw_smallest :
    regDiag 6 (machine 0 "LW 6 0 5" [(1000, .data (.num (-2147483648)))] 5 1000 6 1) = some (-2147483648, [], 4) := by
  decide
theorem witness_lw_above :
    regDiag 6 (machine 0 "LW 6 0 5" [(1000, .data (.num 2147483648))] 5 1000 6 1) = some (0, [⟨.malformed, 1000⟩], 4) := by
  decide
theorem witness_lw_below :
    regDiag 6 (machine 0 "LW 6 0 5" [(1000, .data (.num (-2147483649)))] 5 1000 6 1) =
      some (0, [⟨.malformed, 1000⟩], 4) := by decide
theorem witness_lw_malformed :
    regDiag 6 (machine 0 "LW 6 4 5" [(1004, .data .malformed)] 5 1000 6 1) = some (0, [⟨.malformed, 1004⟩], 4) := by decide
theorem witness_lw_code :
    regDiag 6 (machine 0 "LW 6 0 0" [] 5 1000 6 1) = some (0, [⟨.malformed, 0⟩], 4) := by decide
theorem witness_lw_no_slot :
    regDiag 0 (machine 0 "LW 0 1 5" [(1000, .data (.num 42))] 5 1000 6 1) = some (0, [⟨.noSlot, 1001⟩], 4) := by decide

/-- StoreThenLoadReturnsTheValue, StoreDeletesTheInstruction: a store, and a state at its address after it. -/
theorem witness_store :
    let s := machine 0 "SW 1 0 2" [] 1 0x80000000 2 500
    let t := s.commit (effectOf (.sw 1 0 2) s)
    let u := t.setPc 500
    exec (.sw 1 0 2) s = .next t ∧ (s.readReg 2 + 0).toInt = 500 ∧ u.run = .running ∧ u.pc = s.readReg 2 + 0 ∧
      u.readMem 500 = t.readMem 500 ∧ (u.readReg 2 + 0).toInt = 500 :=
  ⟨rfl, by decide, by decide, by decide, rfl, by decide⟩

/-- AluIsExactModuloTwoToThe32: an overflow each way and none (L2.1). -/
theorem witness_alu : (alu .add 2147483647 1).toInt = 2147483648 - 4294967296 ∧
    (alu .sub 0x80000000 1).toInt = -2147483649 + 4294967296 ∧ (alu .add 4 5).toInt = 9 := by decide

/-- HaltConditionEndsTheRun: the sentinel over a code slot, and a PC without code. -/
theorem witness_halt_sentinel : (machine 0xFFFFFFFF "NOP" [] 1 0 2 0).run = .running ∧
    (machine 0xFFFFFFFF "NOP" [] 1 0 2 0).HaltCondition := ⟨by decide, .inl (by decide)⟩
theorem witness_halt_no_code : booted.run = .running ∧ (booted.setPc 4).HaltCondition :=
  ⟨rfl, .inr fun enc src h => by cases h⟩

/-- StepRunsTheDecodedInstruction, OnlyBranchesAndJumpsRedirect, StepReadsOnlyTheFetchedAndLoadedSlots: a line that
decodes and a step that completes. -/
theorem witness_step : (machine 0 "LW 3 0 1" [(9, .data (.num 1))] 1 9 2 0).RunsLine "LW 3 0 1".toList ∧
    decode "LW 3 0 1".toList = .instr (.lw 3 0 1) ∧
    (next (machine 0 "LW 3 0 1" [(9, .data (.num 1))] 1 9 2 0)).map (·.run) = some .running :=
  ⟨witness_runs _ _ _ _, by decide, by decide⟩

/-- OnlyBranchesAndJumpsRedirect, RedirectByZeroNeverEnds, RedirectToMinusOneHalts: the three redirects, by 0 and to
`-1`, and a line that has none. -/
theorem witness_redirects :
    Redirects (machine 0 "JAL 1 0" [] 1 0 2 0) "JAL 1 0".toList 0 ∧
    Redirects (machine 0 "BEQ 1 2 0" [] 1 7 2 7) "BEQ 1 2 0".toList 0 ∧
    Redirects (machine 0 "BNE 1 2 -1" [] 1 7 2 8) "BNE 1 2 -1".toList 0xFFFFFFFF ∧
    (machine 0 "BNE 1 2 -1" [] 1 7 2 8).pc + 0xFFFFFFFF = 0xFFFFFFFF :=
  ⟨.inl ⟨1, by decide⟩, .inr (.inl ⟨1, 2, by decide, by decide⟩), .inr (.inr ⟨1, 2, by decide, by decide⟩), by decide⟩
theorem witness_no_redirect (imm : Word) : ¬ Redirects (machine 0 "BEQ 1 2 8" [] 1 7 2 8) "BEQ 1 2 8".toList imm := by
  rintro (⟨rd, h⟩ | ⟨a, b, h, he⟩ | ⟨a, b, h, -⟩) <;>
    rw [show decode "BEQ 1 2 8".toList = .instr (.beq 1 2 8) from by decide] at h <;> cases h
  exact absurd he (by decide)

/-- UnknownMnemonicOnlyAdvancesThePc, SystemMnemonicsAreNoOps: lines without a supported mnemonic, running. -/
theorem witness_unknown (m : Mnemonic) : (tokens "ECALL 1".toList)[0]? ≠ some m.text := by cases m <;> decide
theorem witness_system : (machine 0 "ECALL" [] 1 0 2 0).RunsLine "ECALL".toList ∧
    (tokens "ECALL".toList)[0]? = some "ECALL".toList ∧
    (machine 0 " \tFENCE.I\t0" [] 1 0 2 0).RunsLine " \tFENCE.I\t0".toList ∧
    (tokens " \tFENCE.I\t0".toList)[0]? = some "FENCE.I".toList :=
  ⟨witness_runs _ _ _ _, by decide, witness_runs _ _ _ _, by decide⟩

/-- InvalidOperandFaultIsPreciseAndSticky: a bad line, running, and a FAULTED state. -/
theorem witness_fault : (machine 0 "ADD 2 1" [] 1 5 2 0).RunsLine "ADD 2 1".toList ∧
    decode "ADD 2 1".toList = .invalid .missingOperand 3 ∧
    (next (machine 0 "ADD 2 1" [] 1 5 2 0)).map (·.run) = some .faulted :=
  ⟨witness_runs _ _ _ _, by decide, by decide⟩
theorem witness_faulted_host : (hostOps [.setRegister 1 3] (booted.raiseInvalidOperand .notDecimal 1 [])).map (·.run) =
    some .faulted := by decide

/-- RunStateTransitions, RunStartsWithoutResetting: `run` in HALTED. -/
theorem witness_run : (hostOps [.run (-2147483648)] State.reset).map (fun t => (t.run, t.pc)) =
    some (.running, 0x80000000) := by decide

/-- BinaryFieldsNeverAffectExecution: two states that differ in a binary field, and a step. -/
theorem witness_encodings :
    let s := { booted with mem := [(0, .code (.word 7) "ADD 1 2 3".toList)] }
    s ≠ booted ∧ s.withoutEncodings = booted.withoutEncodings ∧ (next s).isSome = true := by decide

/-- LeftmostBadOperandIsReported, ExtraTokensAreIgnored: a line of a supported mnemonic, and the line lengthened. -/
theorem witness_tokens : tokens "ADD 1 2 3".toList = Mnemonic.add.text :: ["1".toList, "2".toList, "3".toList] ∧
    tokens "ADD 1 2 3 4".toList = tokens "ADD 1 2 3".toList ++ ["4".toList] := by decide

/-- EncoderWordOfAnAddiLine: operands at the ends of the range. -/
theorem witness_encoder :
    tokens "ADDI -2147483648 33 2147483647 x".toList =
      "ADDI".toList :: "-2147483648".toList :: "33".toList :: "2147483647".toList :: ["x".toList] ∧
    integerOf "-2147483648".toList = some (-2147483648) ∧ integerOf "33".toList = some 33 ∧
    integerOf "2147483647".toList = some 2147483647 ∧ InRange (-2147483648) ∧ InRange 2147483647 := by decide
/-- EveryOtherLineEncodesToEmpty. -/
theorem witness_other_line : (tokens "SUB 1 2 3".toList)[0]? ≠ some "ADDI".toList := by decide

/-- LoadInstructionsPlacesTheLines: a program at the top of the address space, admitted, and one that is not. -/
theorem witness_program : State.reset.run ≠ .running ∧ ProgramAdmitted ["NOP".toList, "NOP".toList] 2147483643 :=
  ⟨by decide, fun l h => ⟨'N', by simp at h; simp [h], by decide⟩, by decide, fun _ => by decide⟩
theorem witness_program_refused : ¬ ProgramAdmitted ["NOP".toList, "NOP".toList] 2147483644 :=
  fun h => absurd (h.2.2 (by decide)) (by decide)
/-- LoadInstructionsPlacesTheLines: no line at all, at the lowest address and below it (assumption log 10). -/
theorem witness_program_empty : ProgramAdmitted [] (-2147483648) ∧ ¬ ProgramAdmitted [] (-2147483649) :=
  ⟨⟨fun _ h => (by cases h), by decide, fun h => absurd rfl h⟩, fun h => absurd h.2.1 (by decide)⟩
/-- LoadDataPlacesTheEntries: an entry above the range, and one below it. -/
theorem witness_entry_out_of_range :
    ¬ EntriesAdmitted [(2147483648, .num 1)] ∧ ¬ EntriesAdmitted [(-2147483649, .malformed)] :=
  ⟨fun h => absurd (h.2 _ (List.mem_singleton.2 rfl)) (by decide),
    fun h => absurd (h.2 _ (List.mem_singleton.2 rfl)) (by decide)⟩
/-- LoadDataPlacesTheEntries, DataEntryOrderIsIrrelevant. -/
theorem witness_entries : EntriesAdmitted [(2147483647, .num 1), (-2147483648, .malformed)] ∧
    ¬ EntriesAdmitted [(1, .num 1), (1, .num 2)] := ⟨⟨by decide, by decide⟩, fun h => absurd h.1 (by decide)⟩
theorem witness_entry_order : State.reset.mem.wf ∧
    hostOps [.loadData [(2, .num 1), (1, .malformed)]] State.reset =
      hostOps [.loadData [(1, .malformed), (2, .num 1)]] State.reset := by decide

/-- ExecutorReportsOnlyRealEnds, EndedRunIsTheSameUnderMoreFuel: a run that ends, and P9, one that does not. -/
theorem witness_ended : booted.run = .running ∧ (runLoop 2 booted).ended = true ∧ (runLoop 1 booted).ended = false := by
  decide
theorem witness_never_ends : (runLoop 3 (machine 0 "BEQ 0 0 0" [] 1 0 2 0)).ended = false := by decide

/-- StepKeepsTheInvariant, HostOperationsKeepTheInvariant, ReachableStatesAreSound: a state with the invariant that
steps, is reachable, and admits an operation of the host after its run. -/
theorem witness_invariant : booted.Inv := ⟨by decide, by decide, by decide, by decide⟩
theorem witness_invariant_steps : (next booted).isSome = true := by decide
theorem witness_invariant_host : (hostOps [.setRegister 0 5] (booted.setRun .halted)).isSome = true := by decide
theorem witness_reachable : Reachable booted :=
  .host (.run 0) _ _ (.host (.setRegister 3 5) _ _ (.host (.setRegister 2 4) _ _
    (.host (.loadInstructions ["ADD 1 2 3".toList] 0) _ _ (.reset 0 0) rfl) rfl) rfl) rfl

/-- StepKeepsCodeEncoded, HostOperationsKeepCodeEncoded: a state with code that steps (`witness_invariant_steps`), the
same state after its run, and a load it admits. -/
theorem witness_code_encoded : booted.CodeEncoded ∧ (booted.setRun .halted).CodeEncoded := by
  have h : booted.CodeEncoded := by
    intro a enc src h
    simp only [booted, State.readMem, Memory.read] at h
    split at h
    · injection h with h
      injection h with he hs
      subst he hs
      exact ⟨by decide, fun w hw => absurd (hw.symm.trans test_encoder_empty) (by simp), fun _ => rfl⟩
    · simp at h
  exact ⟨h, h⟩
theorem witness_code_encoded_host :
    (hostOps [.loadInstructions ["ADDI 1 0 10".toList] 4] (booted.setRun .halted)).map (·.readMem 4) =
      some (some (.code (.word 0x00A00093) "ADDI 1 0 10".toList)) := by decide

/-- CanonicalMemoryIsExtensional: a canonical memory, and an address out of range. -/
theorem witness_memory : Memory.wf [(-2147483648, .data .malformed), (2147483647, .data (.num 1))] ∧
    ¬ InRange 2147483648 := by decide

/-- EncodedAndExecutedImmediatesDiffer: immediates at both sides of the 12-bit range (L2.5). -/
theorem witness_immediates : encodeLine "ADDI 1 0 2047".toList = .word 0x7FF00093 ∧
    encodeLine "ADDI 1 0 -2049".toList = .word 0x7FF00093 ∧ decode "ADDI 1 0 -2049".toList = .instr (.addi 1 0 0xFFFFF7FF) := by
  decide

end Sys2Proof.Tests
end

section
/-! SUPPORT. The invariant of the state and the diagnostics log, at reset and along steps and host operations
(spec/10_state.md R21, R22, R26, R27, R31; spec/20_memory.md R40). -/

namespace Sys2Proof.Proofs.Invariant

open Sys2Proof.Machine

/-! ## The invariant -/

theorem effectOf_mem_inRange {i : Instr} {s : State} {a : Int} {c : Content} (h : (effectOf i s).mem = some (a, c)) :
    InRange a := by
  obtain ⟨rs2, imm, rs1, -, rfl, -⟩ := effectOf_mem h
  exact inRange_toInt _

theorem effectOf_diag_inRange {i : Instr} {s : State} {d : Diagnostic} (h : (effectOf i s).diag = some d) :
    InRange d.addr := by
  obtain ⟨rd, imm, rs1, -, hd⟩ := effectOf_diag h
  rw [hd]
  exact inRange_toInt _

theorem commit_mem_wf {s : State} {e : Effect} (hs : s.mem.wf) (he : ∀ a c, e.mem = some (a, c) → InRange a) :
    (s.commit e).mem.wf := by
  rw [State.commit_mem]
  cases hm : e.mem with
  | none => exact hs
  | some w => exact Memory.wf_write hs (he w.1 w.2 hm) _

/-- An effect whose store and diagnostic name addresses in range keeps the invariant. -/
theorem commit_inv {s : State} {e : Effect} (hs : s.Inv) (hmem : ∀ a c, e.mem = some (a, c) → InRange a)
    (hdiag : ∀ d, e.diag = some d → InRange d.addr) : (s.commit e).Inv where
  memCanonical := commit_mem_wf hs.memCanonical hmem
  x0Zero := (State.commit_stored_x0 s e).trans hs.x0Zero
  faultRecorded := by simpa using hs.faultRecorded
  diagInRange := by
    intro d hd
    rw [State.commit_diag, List.mem_append, Option.mem_toList] at hd
    exact hd.elim (hs.diagInRange d) (hdiag d)

theorem inv_fault_eq_none {s : State} (hs : s.Inv) (hr : s.run = .running) : s.fault = none := by
  have h := hs.faultRecorded
  simpa [hr] using h

/-- The halt keeps the invariant of a RUNNING machine, which has no fault record. -/
theorem halt_inv {s : State} (hs : s.Inv) (hr : s.run = .running) : s.halt.Inv where
  memCanonical := hs.memCanonical
  x0Zero := hs.x0Zero
  faultRecorded := by simp [inv_fault_eq_none hs hr]
  diagInRange := hs.diagInRange

/-- Taking the fault keeps the invariant: it enters FAULTED and writes the record at once. -/
theorem raiseInvalidOperand_inv {s : State} (hs : s.Inv) (r : FaultReason) (k : Nat) (src : Text) :
    (s.raiseInvalidOperand r k src).Inv where
  memCanonical := hs.memCanonical
  x0Zero := hs.x0Zero
  faultRecorded := by simp
  diagInRange := hs.diagInRange

theorem resetAt_inv (pc : Word) (draws : Nat) : (State.resetAt pc draws).Inv where
  memCanonical := Memory.wf_nil
  x0Zero := by simp
  faultRecorded := by simp
  diagInRange := by simp

theorem step_inv {s t : State} (hs : s.Inv) (h : step s = .next t) : t.Inv := by
  obtain ⟨hr, ⟨-, rfl⟩ | ⟨src, -, ⟨-, rfl⟩ | ⟨i, -, rfl⟩ | ⟨r, k, -, rfl⟩⟩⟩ := step_cases h
  · exact halt_inv hs hr
  · exact commit_inv hs (by simp) (by simp)
  · exact commit_inv hs (fun _ _ => effectOf_mem_inRange) fun _ => effectOf_diag_inRange
  · exact raiseInvalidOperand_inv hs r k src

/-- Settles O51: each of the four things a step can do (halt, no-op, commit of an instruction's effect, fault) keeps
the invariant. -/
theorem stepKeepsTheInvariant : Obligations.StepKeepsTheInvariant := fun _ _ => step_inv

/-- Settles O50: the fields that a reset writes. -/
theorem invariantHoldsAfterReset : Obligations.InvariantHoldsAfterReset := resetAt_inv

/-! ## The diagnostics log -/

/-- An instruction leaves the log as it is, or is an LW and appends one record for its own address. -/
theorem commit_effectOf_diag (i : Instr) (s : State) : (s.commit (effectOf i s)).diag = s.diag ∨
    ∃ rd imm rs1 kind, i = .lw rd imm rs1 ∧
      (s.commit (effectOf i s)).diag = s.diag ++ [⟨kind, effectiveAddress s rs1 imm⟩] := by
  rw [State.commit_diag]
  cases hd : (effectOf i s).diag with
  | none => exact .inl (List.append_nil _)
  | some d =>
    obtain ⟨rd, imm, rs1, hi, ha⟩ := effectOf_diag hd
    exact .inr ⟨rd, imm, rs1, d.kind, hi, by rw [← ha]; rfl⟩

theorem step_diag {s t : State} (h : step s = .next t) : t.diag = s.diag ∨
    ∃ src rd imm rs1 kind, s.RunsLine src ∧ decode src = .instr (.lw rd imm rs1) ∧
      t.diag = s.diag ++ [⟨kind, effectiveAddress s rs1 imm⟩] := by
  obtain ⟨hr, ⟨-, rfl⟩ | ⟨src, hf, ⟨-, rfl⟩ | ⟨i, hi, rfl⟩ | ⟨r, k, -, rfl⟩⟩⟩ := step_cases h
  · exact .inl (State.halt_diag s)
  · exact .inl (by simp [State.commit_diag])
  · obtain hsame | ⟨rd, imm, rs1, kind, rfl, happ⟩ := commit_effectOf_diag i s
    · exact .inl hsame
    · exact .inr ⟨src, rd, imm, rs1, kind, runsLine_iff.2 ⟨hr, hf⟩, hi, happ⟩
  · exact .inl (State.raiseInvalidOperand_diag s r k src)

theorem hostOp_diag {op : HostOp} {s t : State} (h : hostOp op s = .next t) (hop : op ≠ .reset) : t.diag = s.diag := by
  cases op with
  | reset => exact absurd rfl hop
  | loadInstructions lines a =>
    obtain ⟨-, -, -, rfl⟩ := loadInstructions_next h
    rfl
  | loadData es =>
    obtain ⟨-, -, -, rfl⟩ := loadData_next h
    rfl
  | setRegister i v =>
    obtain ⟨-, rfl⟩ := setRegister_next h
    exact State.writeReg_diag s i v
  | run p => obtain ⟨-, -, rfl⟩ | ⟨-, rfl⟩ := hostRun_next h <;> rfl

/-- Settles O22: by what a step can do (only an LW's effect has a diagnostic), and by what each admitted host operation
did. -/
theorem onlyLwLogsAndOnlyResetForgets : Obligations.OnlyLwLogsAndOnlyResetForgets :=
  ⟨fun _ _ => step_diag, fun _ _ _ => hostOp_diag⟩

end Sys2Proof.Proofs.Invariant
end

section
/-! SUPPORT. The address space: its canonical form, what a step stores and leaves there, where code slots come from,
and how much of it a step reads (spec/20_memory.md R40, R41, R43, R44, R48, R51, R54). -/

namespace Sys2Proof.Proofs.AddressSpace

open Sys2Proof.Machine

/-! ## The canonical form -/

theorem mem_iff_read {m : Memory} (hm : m.wf) (p : Int × Slot) : p ∈ m ↔ m.read p.1 = some p.2 :=
  ⟨Memory.read_of_mem hm, Memory.mem_of_read⟩

theorem wf_nodup {m : Memory} (hm : m.wf) : m.Nodup :=
  hm.1.imp fun hlt heq => absurd (congrArg Prod.fst heq) (Int.ne_of_lt hlt)

/-- Two canonical memories that read alike list the same slots, and the order of addresses leaves one order for them. -/
theorem wf_ext {m m' : Memory} (hm : m.wf) (hm' : m'.wf) (h : ∀ a, m.read a = m'.read a) : m = m' := by
  have hmem : ∀ p, p ∈ m ↔ p ∈ m' := fun p => by rw [mem_iff_read hm, mem_iff_read hm', h]
  have hperm : m.Perm m' := (List.perm_ext_iff_of_nodup (wf_nodup hm) (wf_nodup hm')).2 hmem
  exact hperm.eq_of_pairwise (fun _ _ _ _ hlt hgt => absurd hlt (Int.lt_asymm hgt)) hm.1 hm'.1

theorem read_eq_none_of_not_inRange {m : Memory} {a : Int} (hm : m.wf) (ha : ¬ InRange a) : m.read a = none := by
  cases hx : m.read a with
  | none => rfl
  | some x => exact absurd (hm.2 _ (Memory.mem_of_read hx)) ha

/-- Settles O54: a canonical memory lists exactly the slots it reads, in the order of their addresses. -/
theorem canonicalMemoryIsExtensional : Obligations.CanonicalMemoryIsExtensional :=
  ⟨fun _ _ => wf_ext, fun _ _ => read_eq_none_of_not_inRange⟩

/-! ## What a step stores -/

/-- An instruction leaves memory as it is, or is an SW and makes its own address hold the signed reading of `rs2`. -/
theorem commit_effectOf_readMem (i : Instr) (s : State) : SameMem s (s.commit (effectOf i s)) ∨
    ∃ rs2 imm rs1, i = .sw rs2 imm rs1 ∧ ∀ a, (s.commit (effectOf i s)).readMem a =
      if a = effectiveAddress s rs1 imm then some (.data (.num (s.readReg rs2).toInt)) else s.readMem a := by
  cases hw : (effectOf i s).mem with
  | none => exact .inl (State.commit_readMem_none s _ hw)
  | some w =>
    obtain ⟨rs2, imm, rs1, hi, ha, hc⟩ := effectOf_mem (a := w.1) (c := w.2) hw
    exact .inr ⟨rs2, imm, rs1, hi, fun a => by rw [State.commit_readMem_some s _ hw, ha, hc]⟩

theorem step_readMem {s t : State} (h : step s = .next t) : SameMem s t ∨
    ∃ src rs2 imm rs1, s.RunsLine src ∧ decode src = .instr (.sw rs2 imm rs1) ∧ ∀ a, t.readMem a =
      if a = effectiveAddress s rs1 imm then some (.data (.num (s.readReg rs2).toInt)) else s.readMem a := by
  obtain ⟨hr, ⟨-, rfl⟩ | ⟨src, hf, ⟨-, rfl⟩ | ⟨i, hi, rfl⟩ | ⟨r, k, -, rfl⟩⟩⟩ := step_cases h
  · exact .inl fun _ => rfl
  · exact .inl (State.commit_readMem_none s _ rfl)
  · obtain hsame | ⟨rs2, imm, rs1, rfl, hstore⟩ := commit_effectOf_readMem i s
    · exact .inl hsame
    · exact .inr ⟨src, rs2, imm, rs1, runsLine_iff.2 ⟨hr, hf⟩, hi, hstore⟩
  · exact .inl fun _ => rfl

theorem eq_code_of_ite_data {p : Prop} [Decidable p] {c : Content} {x : Option Slot} {enc : Encoding} {src : Text}
    (h : (if p then some (.data c) else x) = some (.code enc src)) : x = some (.code enc src) := by
  split at h
  · cases h
  · exact h

/-- What a step stores is data, so each code slot it leaves is one it found. -/
theorem step_readMem_code {s t : State} {a : Int} {enc : Encoding} {src : Text} (h : step s = .next t)
    (ha : t.readMem a = some (.code enc src)) : s.readMem a = some (.code enc src) := by
  obtain hsame | ⟨_, _, _, _, -, -, hstore⟩ := step_readMem h
  · rwa [← hsame a]
  · rw [hstore] at ha
    exact eq_code_of_ite_data ha

/-- Settles O55: a step makes no code slot and changes none, so each code slot it leaves was encoded before it. -/
theorem stepKeepsCodeEncoded : Obligations.StepKeepsCodeEncoded :=
  fun _ _ hs h a enc src ha => hs a enc src (step_readMem_code h ha)

/-! ## Code slots and the host -/

theorem writeEntries_read_code (es : List (Int × Content)) {m : Memory} {a : Int} {enc : Encoding} {src : Text}
    (h : (writeEntries m es).read a = some (.code enc src)) : m.read a = some (.code enc src) := by
  induction es generalizing m with
  | nil => exact h
  | cons e es ih =>
    have hwrite := ih h
    rw [Memory.read_write] at hwrite
    exact eq_code_of_ite_data hwrite

theorem hostOp_readMem_code {op : HostOp} {s t : State} {a : Int} {enc : Encoding} {src : Text}
    (h : hostOp op s = .next t) (ha : t.readMem a = some (.code enc src)) :
    s.readMem a = some (.code enc src) ∨ ∃ lines start, op = .loadInstructions lines start := by
  cases op with
  | reset =>
    obtain ⟨-, rfl⟩ := hostOp_reset_next h
    cases ha
  | loadInstructions lines start => exact .inr ⟨lines, start, rfl⟩
  | loadData es =>
    obtain ⟨-, -, -, rfl⟩ := loadData_next h
    exact .inl (writeEntries_read_code es ha)
  | setRegister i v =>
    obtain ⟨-, rfl⟩ := setRegister_next h
    exact .inl (by simpa using ha)
  | run p => obtain ⟨-, -, rfl⟩ | ⟨-, rfl⟩ := hostRun_next h <;> exact .inl ha

/-- Settles O23: by what a step stores, and by what each admitted host operation did to the code slots. -/
theorem onlySwStoresAndOnlyTheLoaderMakesCode : Obligations.OnlySwStoresAndOnlyTheLoaderMakesCode :=
  ⟨fun _ _ => step_readMem, fun _ _ _ _ _ _ => hostOp_readMem_code⟩

/-! ## A store over code -/

theorem step_of_haltCondition {s : State} (hr : s.run = .running) (h : s.HaltCondition) : step s = .next s.halt := by
  rw [step_running hr, engineStep, fetchLine_eq_none.2 h]

theorem haltCondition_of_readMem_data {s : State} {c : Content} (h : s.readMem (Word.addr s.pc) = some (.data c)) :
    s.HaltCondition :=
  .inr fun enc src hcode => by rw [h] at hcode; cases hcode

theorem exec_sw_pc_readMem {rs2 : RegIdx} {imm : Word} {rs1 : RegIdx} {s t : State}
    (h : exec (.sw rs2 imm rs1) s = .next t) :
    t.pc = s.pc + 4 ∧ t.readMem (effectiveAddress s rs1 imm) = some (.data (.num (s.readReg rs2).toInt)) := by
  rw [exec_eq_commit] at h
  cases h
  exact ⟨State.commit_pc s _, by rw [State.commit_readMem_some s _ rfl, if_pos rfl]⟩

/-- Settles O24: the stored slot is data, over which the halt condition holds, and no step makes a code slot. -/
theorem storeDeletesTheInstruction : Obligations.StoreDeletesTheInstruction := by
  refine ⟨fun rs2 imm rs1 s t u h => ?_, fun _ _ _ _ _ => step_readMem_code⟩
  obtain ⟨hpc, hdata⟩ := exec_sw_pc_readMem h
  refine ⟨hpc, fun hrun hupc hkept => ?_⟩
  have hdata' : u.readMem (Word.addr u.pc) = some (.data (.num (s.readReg rs2).toInt)) := by
    rw [hkept, hupc]
    exact hdata
  exact step_of_haltCondition hrun (haltCondition_of_readMem_data hdata')

/-! ## What a step reads of memory -/

theorem writeReg_setMem (s : State) (m : Memory) (i : RegIdx) (v : Word) :
    (s.setMem m).writeReg i v = (s.writeReg i v).setMem m := by
  unfold State.writeReg
  split <;> rfl

/-- A commit reads nothing of memory: over another memory it does the same, and its own store. -/
theorem commit_setMem (s : State) (m : Memory) (e : Effect) :
    (s.setMem m).commit e = (s.commit e).setMem ((s.setMem m).commitMem e.mem).mem := by
  rcases e with ⟨_ | ⟨_, _⟩, _ | ⟨_, _⟩, _ | _, _ | _⟩ <;>
    simp only [State.commit, State.commitReg, writeReg_setMem] <;> rfl

/-- An instruction's effect reads memory in an LW alone, and there no more than what the load takes from its slot. -/
theorem effectOf_setMem {i : Instr} {s : State} {m : Memory}
    (hload : ∀ rd imm rs1, i = .lw rd imm rs1 →
      let ea := effectiveAddress s rs1 imm
      loadValue ea (m.read ea) = loadValue ea (s.readMem ea)) :
    effectOf i (s.setMem m) = effectOf i s := by
  cases i with
  | lw rd imm rs1 =>
    have hea : effectiveAddress (s.setMem m) rs1 imm = effectiveAddress s rs1 imm := rfl
    simp only [effectOf, hea, State.readMem_setMem, hload rd imm rs1 rfl]
  | _ => rfl

/-- Over another memory that gives the same line and the same effect to its instruction, a step does the same: its
results differ in memory alone, and both memories take the same store `w`, if any. -/
theorem step_setMem {s t : State} {m : Memory} (h : step s = .next t) (hfetch : fetchLine (s.setMem m) = fetchLine s)
    (heff : ∀ src i, fetchLine s = some src → decode src = .instr i → effectOf i (s.setMem m) = effectOf i s) :
    ∃ w, t.mem = (s.commitMem w).mem ∧ step (s.setMem m) = .next (t.setMem ((s.setMem m).commitMem w).mem) := by
  obtain ⟨hr, ⟨hf, rfl⟩ | ⟨src, hf, hcases⟩⟩ := step_cases h
  · exact ⟨none, rfl, step_of_haltCondition (s := s.setMem m) hr (fetchLine_eq_none.1 (hfetch.trans hf))⟩
  · have hstep : step (s.setMem m) = execDecoded (decode src) src (s.setMem m) :=
      step_of_runsLine (runsLine_iff.2 ⟨hr, hfetch.trans hf⟩)
    obtain ⟨hd, rfl⟩ | ⟨i, hd, rfl⟩ | ⟨r, k, hd, rfl⟩ := hcases <;> rw [hd] at hstep
    · exact ⟨none, rfl, hstep⟩
    · refine ⟨(effectOf i s).mem, State.commit_mem s _, ?_⟩
      rw [hstep, ← commit_setMem, ← heff src i hf hd]
      exact exec_eq_commit i (s.setMem m)
    · exact ⟨none, rfl, hstep⟩

/-! ### The binary fields -/

theorem read_map_withoutEncoding (m : Memory) (a : Int) :
    Memory.read (m.map fun p => (p.1, p.2.withoutEncoding)) a = (m.read a).map Slot.withoutEncoding := by
  induction m with
  | nil => rfl
  | cons p m ih =>
    simp only [List.map_cons, Memory.read, ih]
    split <;> rfl

theorem write_map_withoutEncoding (m : Memory) (a : Int) (x : Slot) :
    (m.write a x).map (fun p => (p.1, p.2.withoutEncoding)) =
      Memory.write (m.map fun p => (p.1, p.2.withoutEncoding)) a x.withoutEncoding := by
  induction m with
  | nil => rfl
  | cons p m ih =>
    simp only [List.map_cons, Memory.write]
    split
    · rfl
    · split
      · rfl
      · rw [List.map_cons, ih]

theorem commitMem_withoutEncodings (s : State) (w : Option (Int × Content)) :
    (s.commitMem w).withoutEncodings = s.withoutEncodings.commitMem w := by
  rcases w with _ | ⟨a, c⟩
  · rfl
  · exact congrArg s.setMem (write_map_withoutEncoding s.mem a (.data c))

theorem readMem_withoutEncodings (s : State) (a : Int) :
    s.withoutEncodings.readMem a = (s.readMem a).map Slot.withoutEncoding :=
  read_map_withoutEncoding s.mem a

theorem fetchLine_withoutEncodings (s : State) : fetchLine s.withoutEncodings = fetchLine s := by
  have hpc : s.withoutEncodings.pc = s.pc := rfl
  unfold fetchLine
  rw [readMem_withoutEncodings, hpc]
  rcases s.readMem (Word.addr s.pc) with _ | ⟨_ | _⟩ <;> rfl

/-- A load takes the same from a code slot whatever its binary field. -/
theorem loadValue_withoutEncoding (ea : Int) (x : Option Slot) :
    loadValue ea (x.map Slot.withoutEncoding) = loadValue ea x := by
  rcases x with _ | ⟨_ | _⟩ <;> rfl

theorem loadValue_congr_withoutEncodings {s s' : State} (h : s.withoutEncodings = s'.withoutEncodings) (ea : Int) :
    loadValue ea (s'.readMem ea) = loadValue ea (s.readMem ea) := by
  rw [← loadValue_withoutEncoding, ← readMem_withoutEncodings, ← h, readMem_withoutEncodings,
    loadValue_withoutEncoding]

theorem eq_setMem_of_withoutEncodings {s s' : State} (h : s.withoutEncodings = s'.withoutEncodings) :
    s' = s.setMem s'.mem :=
  (congrArg (State.setMem · s'.mem) h).symm

/-- Settles O25: neither the fetch nor a load takes anything from a binary field, and blanking commutes with a store. -/
theorem binaryFieldsNeverAffectExecution : Obligations.BinaryFieldsNeverAffectExecution := by
  intro s s' t hs h
  have hs' : s' = s.setMem s'.mem := eq_setMem_of_withoutEncodings hs
  have hfetch : fetchLine (s.setMem s'.mem) = fetchLine s := by
    rw [← hs', ← fetchLine_withoutEncodings, ← hs, fetchLine_withoutEncodings]
  obtain ⟨w, hw, hstep⟩ := step_setMem h hfetch fun _ _ _ _ =>
    effectOf_setMem fun _ _ _ _ => loadValue_congr_withoutEncodings hs _
  rw [← hs'] at hstep
  have hstore : (s.commitMem w).withoutEncodings = (s'.commitMem w).withoutEncodings := by
    rw [commitMem_withoutEncodings, hs, commitMem_withoutEncodings]
  refine ⟨_, hstep, ?_⟩
  calc t.withoutEncodings = (t.setMem (s.commitMem w).mem).withoutEncodings := by rw [← hw]; rfl
    _ = (t.setMem (s'.commitMem w).mem).withoutEncodings := congrArg (fun u : State => t.setMem u.mem) hstore

/-! ### The slots fetched and loaded -/

/-- A store makes the same of two memories at every address where they agreed. -/
theorem readMem_commitMem_congr {s s' : State} {a : Int} (h : s.readMem a = s'.readMem a)
    (w : Option (Int × Content)) : (s.commitMem w).readMem a = (s'.commitMem w).readMem a := by
  rcases w with _ | ⟨b, c⟩
  · exact h
  · simp only [State.commitMem, State.readMem_writeData, h]

/-- Settles O26: the fetched line and the loaded slot are all that a step takes from memory, and a store reads none. -/
theorem stepReadsOnlyTheFetchedAndLoadedSlots : Obligations.StepReadsOnlyTheFetchedAndLoadedSlots := by
  intro s s' t src hs hrun hrun' hload h
  have hs' : s' = s.setMem s'.mem := hs
  obtain ⟨-, hf⟩ := runsLine_iff.1 hrun
  obtain ⟨-, hf'⟩ := runsLine_iff.1 hrun'
  have hfetch : fetchLine (s.setMem s'.mem) = fetchLine s := by rw [← hs', hf, hf']
  have heff : ∀ src' i, fetchLine s = some src' → decode src' = .instr i →
      effectOf i (s.setMem s'.mem) = effectOf i s := by
    intro src' i hsrc hd
    obtain rfl : src = src' := Option.some.inj (hf.symm.trans hsrc)
    exact effectOf_setMem fun rd imm rs1 hi => congrArg _ (hload rd imm rs1 (hi ▸ hd)).symm
  obtain ⟨w, hw, hstep⟩ := step_setMem h hfetch heff
  rw [← hs'] at hstep
  refine ⟨_, hstep, rfl, fun a ha => ?_⟩
  calc t.readMem a = (s.commitMem w).readMem a := congrArg (Memory.read · a) hw
    _ = (s'.commitMem w).readMem a := readMem_commitMem_congr ha w

/-- StepReadsOnlyTheFetchedAndLoadedSlots: two memories that agree on the line and on the slot its LW loads, and
differ elsewhere. -/
theorem witness_memories_differ_elsewhere :
    let line := "LW 3 9 0".toList
    let s := { State.reset with run := .running, mem := [(0, .code .empty line), (9, .data (.num 1))] }
    let s' := s.setMem (s.mem.write 50 (.data .malformed))
    s' = { s with mem := s'.mem } ∧ s.RunsLine line ∧ s'.RunsLine line ∧ decode line = .instr (.lw 3 9 0) ∧
      s.readMem (s.readReg 0 + 9).toInt = s'.readMem (s.readReg 0 + 9).toInt ∧ s.readMem 50 ≠ s'.readMem 50 :=
  ⟨rfl, ⟨rfl, by decide, .empty, by decide⟩, ⟨rfl, by decide, .empty, by decide⟩, by decide,
    by decide, by decide⟩

end Sys2Proof.Proofs.AddressSpace
end

section
/-! SUPPORT. The text of a line: its tokens, the integers that tokens spell, and the tokens of the canonical line
(spec/30_encoding.md R60, R61). -/

namespace Sys2Proof.Proofs.LineText

/-! ## Tokens -/

theorem isWhitespace_iff (c : Char) : isWhitespace c = true ↔
    c.toNat = 0x20 ∨ c.toNat = 0x09 ∨ c.toNat = 0x0A ∨ c.toNat = 0x0B ∨ c.toNat = 0x0C ∨ c.toNat = 0x0D := by
  simp [isWhitespace]

theorem tokens_of_no_whitespace {s : Text} (hne : s ≠ []) (hs : ∀ c ∈ s, isWhitespace c = false) :
    tokens s = [s] := by
  have hsplit : splitTokens s = (s, []) := by simpa [splitTokens] using splitTokens_run s [] hs
  rw [tokens, hsplit, consToken_of_ne_nil hne]

theorem consToken_append (t : Text) (ts us : List Text) : consToken t (ts ++ us) = consToken t ts ++ us := by
  cases t <;> rfl

/-- What stands after a white-space character adds its own tokens, and leaves the run that the text begins with. -/
theorem splitTokens_append_whitespace (a b : Text) {w : Char} (hw : isWhitespace w = true) :
    splitTokens (a ++ w :: b) = ((splitTokens a).1, (splitTokens a).2 ++ tokens b) := by
  induction a with
  | nil => exact splitTokens_whitespace b hw
  | cons c a ih =>
    simp only [List.cons_append, splitTokens, ih]
    split
    · rw [consToken_append]
    · rfl

theorem tokens_append_whitespace (a b : Text) {w : Char} (hw : isWhitespace w = true) :
    tokens (a ++ w :: b) = tokens a ++ tokens b := by
  rw [tokens, splitTokens_append_whitespace a b hw, consToken_append, ← tokens]

/-- Settles O29: a run without white space is one token, and white space separates the tokens on its two sides. -/
theorem tokensAreTheMaximalRuns : Obligations.TokensAreTheMaximalRuns :=
  ⟨isWhitespace_iff, rfl, fun _ => tokens_of_no_whitespace, fun a b _ => tokens_append_whitespace a b⟩

/-! ## Decimal integer tokens -/

theorem digitValue_eq_some {c : Char} {d : Nat} :
    digitValue c = some d ↔ (48 ≤ c.toNat ∧ c.toNat ≤ 57) ∧ d = c.toNat - 48 := by
  simp [digitValue, eq_comm]

/-- Reading digits left to right from the value `acc` is Horner's rule for their base-10 value. -/
theorem digitsValue_eq_some {ds : Text} {acc n : Nat} : digitsValue acc ds = some n ↔
    (∀ c ∈ ds, 48 ≤ c.toNat ∧ c.toNat ≤ 57) ∧
      n = Nat.ofDigits 10 (ds.reverse.map fun c => c.toNat - 48) + 10 ^ ds.length * acc := by
  induction ds generalizing acc with
  | nil => simp [digitsValue, eq_comm]
  | cons c ds ih =>
    rw [digitsValue]
    cases hc : digitValue c with
    | none =>
      have hnot : ¬ (48 ≤ c.toNat ∧ c.toNat ≤ 57) := fun h => by
        simpa [hc] using digitValue_eq_some.2 ⟨h, rfl⟩
      simp [hnot]
    | some d =>
      obtain ⟨hdigit, rfl⟩ := digitValue_eq_some.1 hc
      have hvalue : Nat.ofDigits 10 ((c :: ds).reverse.map fun c => c.toNat - 48) + 10 ^ (c :: ds).length * acc =
          Nat.ofDigits 10 (ds.reverse.map fun c => c.toNat - 48) + 10 ^ ds.length * (10 * acc + (c.toNat - 48)) := by
        simp only [List.reverse_cons, List.map_append, List.map_cons, List.map_nil, Nat.ofDigits_append,
          Nat.ofDigits_singleton, List.length_map, List.length_reverse, List.length_cons]
        ring
      rw [hvalue, List.forall_mem_cons]
      simpa [hdigit] using ih

theorem naturalOf_eq_some {ds : Text} {n : Nat} : naturalOf ds = some n ↔
    ds ≠ [] ∧ (∀ c ∈ ds, 48 ≤ c.toNat ∧ c.toNat ≤ 57) ∧
      n = Nat.ofDigits 10 (ds.reverse.map fun c => c.toNat - 48) := by
  unfold naturalOf
  split
  · simp [*]
  · simp [*, digitsValue_eq_some]

/-- The integer a token spells is its digits' number, with the sign that stands before them. -/
theorem integerOf_eq_some {t : Text} {v : Int} : integerOf t = some v ↔
    ∃ (sign ds : Text) (n : Nat), (sign = [] ∨ sign = ['+'] ∨ sign = ['-']) ∧ t = sign ++ ds ∧
      naturalOf ds = some n ∧ v = (if sign = ['-'] then -1 else 1) * (n : Int) := by
  constructor
  · intro h
    unfold integerOf at h
    split at h <;> obtain ⟨n, hn, rfl⟩ := Option.map_eq_some_iff.1 h
    · exact ⟨['+'], _, n, by simp, rfl, hn, by simp⟩
    · exact ⟨['-'], _, n, by simp, rfl, hn, by simp⟩
    · exact ⟨[], _, n, by simp, rfl, hn, by simp⟩
  · rintro ⟨sign, ds, n, rfl | rfl | rfl, ht, hn, rfl⟩
    · have hdigits : ∀ c ∈ ds, ∃ d, digitValue c = some d := fun c hc =>
        ⟨_, digitValue_eq_some.2 ⟨(naturalOf_eq_some.1 hn).2.1 c hc, rfl⟩⟩
      simp [ht, integerOf_digits hdigits, hn]
    · simp [ht, integerOf, hn]
    · simp [ht, integerOf, hn]

/-- Settles O30: an optional sign is taken off, and the digits after it are read by Horner's rule. -/
theorem decimalTokensSpellTheirInteger : Obligations.DecimalTokensSpellTheirInteger := by
  intro t v
  rw [integerOf_eq_some]
  constructor
  · rintro ⟨sign, ds, n, hsign, ht, hn, hv⟩
    obtain ⟨hne, hdigits, rfl⟩ := naturalOf_eq_some.1 hn
    exact ⟨sign, ds, hsign, hne, hdigits, ht, hv⟩
  · rintro ⟨sign, ds, hsign, hne, hdigits, ht, hv⟩
    exact ⟨sign, ds, _, hsign, ht, naturalOf_eq_some.2 ⟨hne, hdigits, rfl⟩, hv⟩

/-! ## The tokens of the canonical line -/

theorem tokens_append_showOperands {a : Text} (vs : List Int) (hne : a ≠ [])
    (ha : ∀ c ∈ a, isWhitespace c = false) : tokens (a ++ showOperands vs) = a :: vs.map showInteger := by
  induction vs generalizing a with
  | nil => rw [showOperands, List.append_nil, tokens_of_no_whitespace hne ha, List.map_nil]
  | cons v vs ih =>
    rw [showOperands, tokens_append_whitespace _ _ (by decide), tokens_of_no_whitespace hne ha,
      ih (showInteger_ne_nil v) (showInteger_no_whitespace v), List.map_cons, List.singleton_append]

theorem tokens_line (w : Written) : tokens w.line = w.mnemonic.text :: w.operands.map showInteger :=
  tokens_append_showOperands w.operands w.mnemonic.text_ne_nil w.mnemonic.text_no_whitespace

end Sys2Proof.Proofs.LineText
end

section
/-! SUPPORT. The decoder: its operands are read position by position along the form of the mnemonic, and an
instruction is known by what it writes (spec/30_encoding.md R62 to R70). -/

namespace Sys2Proof.Proofs.Decoder

open Sys2Proof.Machine Sys2Proof.Proofs.LineText

/-! ## The first token -/

theorem decode_ne_unknown_of_tokens {src : Text} {m : Mnemonic} {ops : List Text}
    (h : tokens src = m.text :: ops) : decode src ≠ .unknown := by
  rw [decode_of_tokens h]
  cases decodeOperands m ops <;> simp

theorem decode_of_no_mnemonic {src : Text} (h : ∀ m : Mnemonic, (tokens src)[0]? ≠ some m.text) :
    decode src = .unknown := by
  unfold decode
  cases ht : tokens src with
  | nil => rfl
  | cons t ops =>
    have hnone : mnemonicOf t = none := mnemonicOf_eq_none.2 fun m hm => h m (by simp [ht, hm])
    simp [hnone]

theorem decode_eq_unknown {src : Text} :
    decode src = .unknown ↔ ∀ m : Mnemonic, (tokens src)[0]? ≠ some m.text := by
  refine ⟨fun h m hm => ?_, decode_of_no_mnemonic⟩
  cases ht : tokens src with
  | nil => simp [ht] at hm
  | cons t ops =>
    obtain rfl : t = m.text := by simpa [ht] using hm
    exact decode_ne_unknown_of_tokens ht h

theorem spellings_eq : ["ADD", "SUB", "AND", "OR", "ADDI", "LW", "SW", "BEQ", "BNE", "JAL"] =
    Mnemonic.all.map fun m => String.ofList m.text := rfl

/-- Settles O31: the ten strings are the texts of all mnemonics, and only the first token can make a line unknown. -/
theorem firstTokenSelectsTheInstruction : Obligations.FirstTokenSelectsTheInstruction := by
  refine ⟨fun m => ?_, fun name hname => ?_, fun _ => decode_eq_unknown⟩
  · rw [spellings_eq]
    exact List.mem_map_of_mem m.mem_all
  · rw [spellings_eq] at hname
    obtain ⟨m, -, rfl⟩ := List.mem_map.1 hname
    exact ⟨m, String.toList_ofList.symm⟩

/-! ## Reading the operands along a form -/

theorem wfInteger_eq_true {v : Int} : wfInteger v = true ↔ InRange v := by
  rw [wfInteger, decide_eq_true_iff]

theorem wfInteger_eq_false {v : Int} : wfInteger v = false ↔ ¬ InRange v := by
  rw [wfInteger, decide_eq_false_iff_not]

theorem wfRegister_eq_true {v : Int} : wfRegister v = true ↔ 0 ≤ v ∧ v ≤ 31 := by
  rw [wfRegister, Bool.and_eq_true, decide_eq_true_iff, decide_eq_true_iff]

theorem wfOperand_eq_true {role : Role} {v : Int} :
    wfOperand role v = true ↔ InRange v ∧ (role = .register → 0 ≤ v ∧ v ≤ 31) := by
  cases role <;> simp [wfOperand, wfInteger_eq_true, wfRegister_eq_true]

/-- Operand `k` (1-based) read and checked in its role: the integer its token spells. -/
def readOperand (ops : List Text) (role : Role) (k : Nat) : Except (FaultReason × Nat) Int :=
  match readInteger ops k with
  | .error e => .error e
  | .ok v => if wfOperand role v then .ok v else .error (.registerOutOfRange, k)

theorem readOperand_eq_ok {ops : List Text} {role : Role} {k : Nat} {v : Int} :
    readOperand ops role k = .ok v ↔ readInteger ops k = .ok v ∧ wfOperand role v = true := by
  unfold readOperand
  cases readInteger ops k with
  | error e => simp
  | ok u =>
    by_cases hu : wfOperand role u = true
    · simp only [hu, if_true, Except.ok.injEq]
      exact ⟨fun h => ⟨h, h ▸ hu⟩, And.left⟩
    · simp only [hu, Except.ok.injEq]
      exact ⟨fun h => (nomatch h), fun h => absurd (h.1 ▸ h.2) hu⟩

/-- A register is read as the integer of its index (R64). -/
theorem map_readRegister (ops : List Text) (k : Nat) :
    (readRegister ops k).map (fun r => (r.val : Int)) = readOperand ops .register k := by
  unfold readRegister readOperand
  cases h : readInteger ops k with
  | error e => rfl
  | ok v =>
    obtain ⟨-, -, -, hrange⟩ := readInteger_eq_ok.1 h
    by_cases hv : 0 ≤ v ∧ v ≤ 31
    · have hwf : wfOperand .register v = true := wfOperand_eq_true.2 ⟨hrange, fun _ => hv⟩
      simp [hv, hwf, Except.map]
    · have hwf : wfOperand .register v ≠ true := fun h => hv ((wfOperand_eq_true.1 h).2 rfl)
      simp [hv, hwf, Except.map]

/-- An immediate is read as the integer of its signed reading (R66). -/
theorem map_readImmediate (ops : List Text) (k : Nat) :
    (readImmediate ops k).map Word.sint = readOperand ops .immediate k := by
  cases h : readInteger ops k with
  | error e => simp [readImmediate, readOperand, h, Except.map]
  | ok v =>
    have hw : readImmediate ops k = .ok (Word.ofInteger v) := by simp [readImmediate, h]
    rw [hw]
    exact (readOperand_eq_ok (role := .immediate).2 ⟨readImmediate_ok hw, Laws.wfInteger_word _⟩).symm

/-- A reading put before the readings that follow it; the leftmost error is kept. -/
def consReading {ε α : Type} (a : Except ε α) (rest : Except ε (List α)) : Except ε (List α) := do
  return (← a) :: (← rest)

/-- The operands of a form whose first position is `k`, read left to right. -/
def readOperands (ops : List Text) : List Role → Nat → Except (FaultReason × Nat) (List Int)
  | [], _ => .ok []
  | role :: roles, k => consReading (readOperand ops role k) (readOperands ops roles (k + 1))

theorem map_read_three {ε α β γ δ σ : Type} {f : α → β → γ → δ} {g : δ → List σ} {p : α → σ} {q : β → σ} {r : γ → σ}
    (hg : ∀ x y z, g (f x y z) = [p x, q y, r z]) (a : Except ε α) (b : Except ε β) (c : Except ε γ) :
    Except.map g (do return f (← a) (← b) (← c)) =
      consReading (a.map p) (consReading (b.map q) (consReading (c.map r) (.ok []))) := by
  cases a with
  | error e => rfl
  | ok x =>
    cases b with
    | error e => rfl
    | ok y =>
      cases c with
      | error e => rfl
      | ok z => exact congrArg Except.ok (hg x y z)

theorem map_read_two {ε α β δ σ : Type} {f : α → β → δ} {g : δ → List σ} {p : α → σ} {q : β → σ}
    (hg : ∀ x y, g (f x y) = [p x, q y]) (a : Except ε α) (b : Except ε β) :
    Except.map g (do return f (← a) (← b)) = consReading (a.map p) (consReading (b.map q) (.ok [])) := by
  cases a with
  | error e => rfl
  | ok x =>
    cases b with
    | error e => rfl
    | ok y => exact congrArg Except.ok (hg x y)

/-- The decoder reads the operands of each mnemonic along its form (R63). -/
theorem decodeOperands_map_operands (m : Mnemonic) (ops : List Text) :
    (decodeOperands m ops).map (fun i => i.written.operands) = readOperands ops m.roles 1 := by
  cases m <;> simp only [Mnemonic.roles, readOperands, ← map_readRegister, ← map_readImmediate]
  case jal => exact map_read_two (by intros; rfl) _ _
  all_goals exact map_read_three (by intros; rfl) _ _ _

/-- An instruction is known by the mnemonic and the operands it writes. -/
theorem written_injective {i j : Instr} (h : i.written = j.written) : i = j := by
  cases i <;> cases j <;> injection h with hmnemonic hoperands <;> cases hmnemonic
  all_goals simpa [Fin.val_inj, BitVec.toInt_inj] using hoperands

theorem readOperands_of_decodeOperands {m : Mnemonic} {ops : List Text} {i : Instr} (h : decodeOperands m ops = .ok i) :
    readOperands ops m.roles 1 = .ok i.written.operands := by
  rw [← decodeOperands_map_operands, h]
  rfl

theorem decodeOperands_of_readOperands {m : Mnemonic} {ops : List Text} {vs : List Int}
    (h : readOperands ops m.roles 1 = .ok vs) : ∃ i, decodeOperands m ops = .ok i ∧ i.written = ⟨m, vs⟩ := by
  rw [← decodeOperands_map_operands] at h
  cases hd : decodeOperands m ops with
  | error e => rw [hd] at h; cases h
  | ok i =>
    rw [hd] at h
    exact ⟨i, rfl, (Written.mk.injEq ..).mpr ⟨decodeOperands_mnemonic hd, Except.ok.inj h⟩⟩

theorem decodeOperands_error {m : Mnemonic} {ops : List Text} {e : FaultReason × Nat}
    (h : readOperands ops m.roles 1 = .error e) : decodeOperands m ops = .error e := by
  rw [← decodeOperands_map_operands] at h
  cases hd : decodeOperands m ops with
  | error e' => rw [hd] at h; exact congrArg Except.error (Except.error.inj h)
  | ok i => rw [hd] at h; cases h

theorem decode_of_readOperands {src : Text} {m : Mnemonic} {ops : List Text} {vs : List Int}
    (ht : tokens src = m.text :: ops) (h : readOperands ops m.roles 1 = .ok vs) :
    ∃ i, decode src = .instr i ∧ i.written = ⟨m, vs⟩ := by
  obtain ⟨i, hd, hi⟩ := decodeOperands_of_readOperands h
  exact ⟨i, by rw [decode_of_tokens ht, hd], hi⟩

theorem consReading_eq_ok {ε α : Type} {a : Except ε α} {rest : Except ε (List α)} {vs : List α} :
    consReading a rest = .ok vs ↔ ∃ v ws, a = .ok v ∧ rest = .ok ws ∧ vs = v :: ws := by
  cases a with
  | error e => simp [consReading, bind, Except.bind]
  | ok v => cases rest <;> simp [consReading, bind, Except.bind, pure, Except.pure, eq_comm]

/-! ## Tokens after the last operand -/

theorem readInteger_append {ops : List Text} {k : Nat} {v : Int} (extra : List Text) (h : readInteger ops k = .ok v) :
    readInteger (ops ++ extra) k = .ok v := by
  obtain ⟨t, ht, hv, hrange⟩ := readInteger_eq_ok.1 h
  exact readInteger_eq_ok.2 ⟨t, (List.getElem?_append_left (List.getElem?_eq_some_iff.1 ht).1).trans ht, hv, hrange⟩

theorem readOperands_append {ops : List Text} {roles : List Role} {k : Nat} {vs : List Int} (extra : List Text)
    (h : readOperands ops roles k = .ok vs) : readOperands (ops ++ extra) roles k = .ok vs := by
  induction roles generalizing k vs with
  | nil => exact h
  | cons role roles ih =>
    obtain ⟨v, ws, hv, hws, rfl⟩ := consReading_eq_ok.1 h
    obtain ⟨hint, hwf⟩ := readOperand_eq_ok.1 hv
    exact consReading_eq_ok.2 ⟨v, ws, readOperand_eq_ok.2 ⟨readInteger_append extra hint, hwf⟩, ih hws, rfl⟩

/-- Settles O33: each operand of the form stands where it stood, and the operands written determine the instruction. -/
theorem extraTokensAreIgnored : Obligations.ExtraTokensAreIgnored := by
  intro src src' i extra h ht
  obtain ⟨ops, hops, hd⟩ := decode_eq_instr h
  rw [hops, List.cons_append] at ht
  obtain ⟨j, hj, hwritten⟩ := decode_of_readOperands ht (readOperands_append extra (readOperands_of_decodeOperands hd))
  obtain rfl : j = i := written_injective hwritten
  exact hj

/-! ## The canonical line -/

theorem getElem?_of_drop_eq_cons {α : Type} {l l' : List α} {k : Nat} {a : α} (h : l.drop k = a :: l') :
    l[k]? = some a ∧ l.drop (k + 1) = l' := by
  constructor
  · simpa [h] using (List.getElem?_drop (xs := l) (i := k) (j := 0)).symm
  · rw [← List.tail_drop, h, List.tail_cons]

theorem readOperand_showInteger {ops : List Text} {role : Role} {k : Nat} {v : Int}
    (hop : ops[k]? = some (showInteger v)) (hwf : wfOperand role v = true) : readOperand ops role (k + 1) = .ok v := by
  obtain ⟨hrange, -⟩ := wfOperand_eq_true.1 hwf
  exact readOperand_eq_ok.2 ⟨readInteger_eq_ok.2 ⟨_, hop, integerOf_showInteger hrange, hrange⟩, hwf⟩

/-- The tokens of well-formed operands are read back along the form, those after the form left out. -/
theorem readOperands_showInteger {ops : List Text} {roles : List Role} {k : Nat} {vs : List Int}
    (hops : ops.drop k = vs.map showInteger) (hwf : wfOperands roles vs = true) :
    readOperands ops roles (k + 1) = .ok (vs.take roles.length) := by
  induction roles generalizing k vs with
  | nil => rfl
  | cons role roles ih =>
    cases vs with
    | nil => cases hwf
    | cons v vs =>
      obtain ⟨hop, hrest⟩ := getElem?_of_drop_eq_cons hops
      obtain ⟨hv, hvs⟩ := (Bool.and_eq_true _ _).mp hwf
      exact consReading_eq_ok.2 ⟨v, _, readOperand_showInteger hop hv, ih hrest hvs, rfl⟩

/-- Settles O34: the canonical line's tokens are the mnemonic and the operands, which are read back along the form. -/
theorem wellFormedLinesDecode : Obligations.WellFormedLinesDecode := by
  intro w hwf
  obtain ⟨i, hi, hwritten⟩ := decode_of_readOperands (tokens_line w) (readOperands_showInteger (k := 0) rfl hwf)
  exact ⟨i, hi, by rw [hwritten], by rw [hwritten]⟩

theorem written_wf (i : Instr) : i.written.wf = true := by
  cases i with
  | add rd rs1 rs2 => exact Laws.WrittenWf.add rd rs1 rs2
  | sub rd rs1 rs2 => exact Laws.WrittenWf.sub rd rs1 rs2
  | and rd rs1 rs2 => exact Laws.WrittenWf.and rd rs1 rs2
  | or rd rs1 rs2 => exact Laws.WrittenWf.or rd rs1 rs2
  | addi rd rs1 imm => exact Laws.WrittenWf.addi rd rs1 imm
  | lw rd imm rs1 => exact Laws.WrittenWf.lw rd imm rs1
  | sw rs2 imm rs1 => exact Laws.WrittenWf.sw rs2 imm rs1
  | beq rs1 rs2 imm => exact Laws.WrittenWf.beq rs1 rs2 imm
  | bne rs1 rs2 imm => exact Laws.WrittenWf.bne rs1 rs2 imm
  | jal rd imm => exact Laws.WrittenWf.jal rd imm

theorem written_operands_length (i : Instr) : i.written.operands.length = i.written.mnemonic.roles.length := by
  cases i <;> rfl

/-- Settles O35: an instruction writes a well-formed line, and the operands read back from it determine it. -/
theorem decodeReadsBackTheCanonicalLine : Obligations.DecodeReadsBackTheCanonicalLine := by
  intro i
  obtain ⟨j, hj, hmnemonic, hoperands⟩ := wellFormedLinesDecode i.written (written_wf i)
  rw [← written_operands_length, List.take_length] at hoperands
  obtain rfl : j = i := written_injective ((Written.mk.injEq ..).mpr ⟨hmnemonic, hoperands⟩)
  exact hj

/-- Settles O36: each of the six lines is the canonical line of its instruction. -/
theorem writtenOutLinesDecode : Obligations.WrittenOutLinesDecode := by
  have hread : ∀ {line : String} (i : Instr), line.toList = encode i → decode line.toList = .instr i :=
    fun i h => h ▸ decodeReadsBackTheCanonicalLine i
  exact ⟨hread (.add 1 2 3) (by decide), hread (.addi 1 0 (-5)) (by decide), hread (.lw 6 4 5) (by decide),
    hread (.sw 1 8 2) (by decide), hread (.beq 1 2 (-40)) (by decide), hread (.jal 1 16) (by decide)⟩

/-! ## The leftmost bad operand -/

/-- Operand `k` fails a check, `reason` first, and no operand from `start` to it fails one. -/
def LeftmostFailure (m : Mnemonic) (ops : List Text) (start : Nat) (reason : FaultReason) (k : Nat) : Prop :=
  start ≤ k ∧ operandFailure m ops k = some reason ∧ ∀ j, start ≤ j → j < k → operandFailure m ops j = none

theorem LeftmostFailure.unique {m : Mnemonic} {ops : List Text} {start k k' : Nat} {r r' : FaultReason}
    (h : LeftmostFailure m ops start r k) (h' : LeftmostFailure m ops start r' k') : r = r' ∧ k = k' := by
  obtain ⟨hk, hfail, hleft⟩ := h
  obtain ⟨hk', hfail', hleft'⟩ := h'
  obtain hlt | rfl | hgt := lt_trichotomy k k'
  · simp [hleft' k hk hlt] at hfail
  · exact ⟨Option.some.inj (hfail.symm.trans hfail'), rfl⟩
  · simp [hleft k' hk' hgt] at hfail'

theorem operandFailure_of_no_role {m : Mnemonic} {ops : List Text} {k : Nat} (h : m.roles.length < k) :
    operandFailure m ops k = none := by
  have hrole : m.roles[k - 1]? = none := List.getElem?_eq_none (by omega)
  simp [operandFailure, hrole]

/-- Reading an operand of the form makes the checks of R68 in their order. -/
theorem readOperand_cases {m : Mnemonic} {k : Nat} {role : Role} (ops : List Text)
    (hrole : m.roles[k - 1]? = some role) :
    (∃ v, readOperand ops role k = .ok v ∧ operandFailure m ops k = none) ∨
    ∃ r, readOperand ops role k = .error (r, k) ∧ operandFailure m ops k = some r := by
  cases hop : ops[k - 1]? with
  | none =>
    exact .inr ⟨.missingOperand, by simp [readOperand, readInteger, hop], by simp [operandFailure, hrole, hop]⟩
  | some t =>
    cases hv : integerOf t with
    | none =>
      exact .inr ⟨.notDecimal, by simp [readOperand, readInteger, hop, hv], by simp [operandFailure, hrole, hop, hv]⟩
    | some v =>
      by_cases hrange : InRange v
      · have hread : readInteger ops k = .ok v := readInteger_eq_ok.2 ⟨t, hop, hv, hrange⟩
        have hint := wfInteger_eq_true.2 hrange
        cases role with
        | register =>
          cases hreg : wfRegister v with
          | false =>
            exact .inr ⟨.registerOutOfRange, by simp [readOperand, hread, wfOperand, hreg],
              by simp [operandFailure, hrole, hop, hv, hint, hreg]⟩
          | true =>
            exact .inl ⟨v, by simp [readOperand, hread, wfOperand, hint, hreg],
              by simp [operandFailure, hrole, hop, hv, hint, hreg]⟩
        | immediate =>
          exact .inl ⟨v, by simp [readOperand, hread, wfOperand, hint], by simp [operandFailure, hrole, hop, hv, hint]⟩
      · have hint := wfInteger_eq_false.2 hrange
        exact .inr ⟨.intOutOfRange, by simp only [readOperand, readInteger, hop, hv, if_neg hrange],
          by simp [operandFailure, hrole, hop, hv, hint]⟩

/-- Reading a form's operands from position `k + 1` on ends in the leftmost failure there, if there is one. -/
theorem readOperands_cases {m : Mnemonic} {roles : List Role} {k : Nat} (ops : List Text)
    (hroles : m.roles.drop k = roles) :
    (∃ vs, readOperands ops roles (k + 1) = .ok vs ∧ ∀ j, k + 1 ≤ j → operandFailure m ops j = none) ∨
    ∃ r j, readOperands ops roles (k + 1) = .error (r, j) ∧ LeftmostFailure m ops (k + 1) r j := by
  induction roles generalizing k with
  | nil =>
    have hlen := List.drop_eq_nil_iff.1 hroles
    exact .inl ⟨[], rfl, fun j hj => operandFailure_of_no_role (by omega)⟩
  | cons role roles ih =>
    obtain ⟨hrole, hrest⟩ := getElem?_of_drop_eq_cons hroles
    rw [readOperands]
    obtain ⟨v, hread, hgood⟩ | ⟨r, hread, hbad⟩ := readOperand_cases (k := k + 1) ops hrole
    · have hfrom : ∀ {j}, k + 1 ≤ j → k + 1 + 1 ≤ j ∨ j = k + 1 := by omega
      obtain ⟨vs, hreads, hgoods⟩ | ⟨r, j, hreads, hj, hbad, hleft⟩ := ih hrest
      · refine .inl ⟨v :: vs, by rw [hread, hreads]; rfl, fun j hj => ?_⟩
        obtain hj' | rfl := hfrom hj
        · exact hgoods j hj'
        · exact hgood
      · refine .inr ⟨r, j, by rw [hread, hreads]; rfl, by omega, hbad, fun i hi hij => ?_⟩
        obtain hi' | rfl := hfrom hi
        · exact hleft i hi' hij
        · exact hgood
    · exact .inr ⟨r, k + 1, by rw [hread]; rfl, le_rfl, hbad, fun j hj hjk => absurd hj (by omega)⟩

/-- What a line of a supported mnemonic decodes to, by the checks of its operands. -/
theorem decode_cases {src : Text} {m : Mnemonic} {ops : List Text} (ht : tokens src = m.text :: ops) :
    (∃ i, decode src = .instr i ∧ ∀ k, 1 ≤ k → operandFailure m ops k = none) ∨
    ∃ r k, decode src = .invalid r k ∧ LeftmostFailure m ops 1 r k := by
  obtain ⟨vs, hread, hgood⟩ | ⟨r, k, hread, hleft⟩ := readOperands_cases (k := 0) ops (List.drop_zero (l := m.roles))
  · obtain ⟨i, hi, -⟩ := decode_of_readOperands ht hread
    exact .inl ⟨i, hi, hgood⟩
  · exact .inr ⟨r, k, by rw [decode_of_tokens ht, decodeOperands_error hread], hleft⟩

/-- Settles O32: reading along the form ends in the leftmost failure, and there is at most one. -/
theorem leftmostBadOperandIsReported : Obligations.LeftmostBadOperandIsReported := by
  intro src m ops ht
  obtain ⟨i, hi, hgood⟩ | ⟨r₀, k₀, hbad, hleft⟩ := decode_cases ht
  · refine ⟨fun r k => ⟨fun h => ?_, fun ⟨hk, hfail, _⟩ => ?_⟩, fun _ => hgood, fun _ => ⟨i, hi⟩⟩
    · rw [hi] at h; cases h
    · simp [hgood k hk] at hfail
  · refine ⟨fun r k => ⟨fun h => ?_, fun h => ?_⟩, fun ⟨i, hi⟩ => ?_, fun hgood => ?_⟩
    · rw [hbad] at h; cases h; exact hleft
    · obtain ⟨rfl, rfl⟩ := hleft.unique h
      exact hbad
    · rw [hbad] at hi; cases hi
    · obtain ⟨hk, hfail, -⟩ := hleft
      simp [hgood k₀ hk] at hfail

end Sys2Proof.Proofs.Decoder
end

section
/-! SUPPORT. The hardware's instruction encoder: which outcome a line has, and the fields of an ADDI line's word
(spec/30_encoding.md R71 to R79). -/

namespace Sys2Proof.Proofs.Encoder

open Sys2Proof.Machine

/-! ## The outcome of a line -/

/-- Settles O38: the encoder looks at no operand unless the first token is `ADDI`. -/
theorem everyOtherLineEncodesToEmpty : Obligations.EveryOtherLineEncodesToEmpty := by
  intro src h
  unfold encodeLine
  cases ht : tokens src with
  | nil => rfl
  | cons t ops =>
    have hne : t ≠ Mnemonic.addi.text := fun heq => h (by rw [ht, heq]; rfl)
    exact if_neg hne

theorem operandReadable_iff {ops : List Text} {k : Nat} :
    OperandReadable ops k ↔ ∃ v, readInteger ops k = .ok v := by
  simp only [OperandReadable, readInteger_eq_ok]
  exact exists_comm

theorem encodeLine_of_read {src : Text} {ops : List Text} {rd rs1 imm : Int}
    (ht : tokens src = Mnemonic.addi.text :: ops) (hrd : readInteger ops 1 = .ok rd)
    (hrs1 : readInteger ops 2 = .ok rs1) (himm : readInteger ops 3 = .ok imm) :
    encodeLine src = .word (addiWord imm rs1 rd) := by
  simp [encodeLine, ht, hrd, hrs1, himm]

theorem encodeLine_of_not_readable {src : Text} {ops : List Text} (ht : tokens src = Mnemonic.addi.text :: ops)
    (h : ¬ (OperandReadable ops 1 ∧ OperandReadable ops 2 ∧ OperandReadable ops 3)) : encodeLine src = .unspec := by
  simp only [operandReadable_iff] at h
  unfold encodeLine
  rw [ht]
  simp only [if_true]
  split
  · exact absurd ⟨⟨_, ‹_›⟩, ⟨_, ‹_›⟩, ⟨_, ‹_›⟩⟩ h
  · rfl

/-- Settles O39: three readable operands give a word, and what is drawn for any other ADDI line is stored. -/
theorem malformedAddiLineIsUnspec : Obligations.MalformedAddiLineIsUnspec := by
  intro src ops ht
  refine ⟨⟨fun h => ?_, encodeLine_of_not_readable ht⟩, fun h draw => by rw [h]; rfl⟩
  simp only [operandReadable_iff]
  rintro ⟨⟨rd, hrd⟩, ⟨rs1, hrs1⟩, ⟨imm, himm⟩⟩
  rw [encodeLine_of_read ht hrd hrs1 himm] at h
  cases h

/-! ## The fields of an ADDI word -/

section
variable (imm rs1 rd : Int)

theorem addiWord_imm : (addiWord imm rs1 rd).extractLsb' 20 12 = BitVec.ofInt 12 imm := by
  rw [addiWord, BitVec.extractLsb'_append_eq_of_le (by decide), BitVec.extractLsb'_append_eq_of_le (by decide),
    BitVec.extractLsb'_append_eq_of_le (by decide)]
  exact BitVec.extractLsb'_append_eq_left

theorem addiWord_rs1 : (addiWord imm rs1 rd).extractLsb' 15 5 = BitVec.ofInt 5 rs1 := by
  rw [addiWord, BitVec.extractLsb'_append_eq_of_le (by decide), BitVec.extractLsb'_append_eq_of_le (by decide),
    BitVec.extractLsb'_append_eq_of_le (by decide)]
  exact BitVec.extractLsb'_append_eq_right

theorem addiWord_funct3 : (addiWord imm rs1 rd).extractLsb' 12 3 = 0b000#3 := by
  rw [addiWord, BitVec.extractLsb'_append_eq_of_le (by decide), BitVec.extractLsb'_append_eq_of_le (by decide)]
  exact BitVec.extractLsb'_append_eq_right

theorem addiWord_rd : (addiWord imm rs1 rd).extractLsb' 7 5 = BitVec.ofInt 5 rd := by
  rw [addiWord, BitVec.extractLsb'_append_eq_of_le (by decide)]
  exact BitVec.extractLsb'_append_eq_right

theorem addiWord_opcode : (addiWord imm rs1 rd).extractLsb' 0 7 = 0b0010011#7 := by
  rw [addiWord]
  exact BitVec.extractLsb'_append_eq_right

/-- The mask of R74 leaves funct3 and the opcode, the two constant fields. -/
theorem addiWord_mask : addiWord imm rs1 rd &&& 0x0000707F = 0x00000013 := by
  have hmask : (0x0000707F : Word) = 0#12 ++ 0#5 ++ 0b111#3 ++ 0#5 ++ 0b1111111#7 := rfl
  have hword : (0x00000013 : Word) = 0#12 ++ 0#5 ++ 0b000#3 ++ 0#5 ++ 0b0010011#7 := rfl
  rw [hmask, hword, addiWord]
  rw [BitVec.and_append, BitVec.and_append, BitVec.and_append, BitVec.and_append, BitVec.and_zero, BitVec.and_zero,
    BitVec.and_zero]
  rfl

end

theorem natCast_toNat_ofInt (n : Nat) (v : Int) : ((BitVec.ofInt n v).toNat : Int) = v % 2 ^ n := by
  rw [BitVec.toNat_ofInt, Int.toNat_of_nonneg (Int.emod_nonneg _ (by positivity))]
  norm_cast

/-- Settles O37: the three operands are read without a register check, and each field keeps its low bits. -/
theorem encoderWordOfAnAddiLine : Obligations.EncoderWordOfAnAddiLine := by
  intro src a b c rest rd rs1 imm ht ha hb hc hrd hrs1 himm
  have hword : encodeLine src = .word (addiWord imm rs1 rd) :=
    encodeLine_of_read ht (readInteger_eq_ok.2 ⟨a, rfl, ha, hrd⟩) (readInteger_eq_ok.2 ⟨b, rfl, hb, hrs1⟩)
      (readInteger_eq_ok.2 ⟨c, rfl, hc, himm⟩)
  refine ⟨_, hword, ?_, ?_, addiWord_funct3 .., ?_, addiWord_opcode .., addiWord_mask ..⟩
  · rw [addiWord_imm, natCast_toNat_ofInt]; rfl
  · rw [addiWord_rs1, natCast_toNat_ofInt]; rfl
  · rw [addiWord_rd, natCast_toNat_ofInt]; rfl

/-! ## The executed and the encoded immediate -/

theorem encodeLine_of_decode_addi {src : Text} {rd rs1 : RegIdx} {imm : Word}
    (h : decode src = .instr (.addi rd rs1 imm)) :
    encodeLine src = .word (addiWord imm.toInt (rs1.val : Int) (rd.val : Int)) := by
  obtain ⟨ops, ht, hd⟩ := decode_eq_instr h
  obtain ⟨r, r', w, hr, hr', hw, he⟩ := read_three_ok hd
  cases he
  exact encodeLine_of_read ht (readRegister_ok hr) (readRegister_ok hr') (readImmediate_ok hw)

theorem ofInt_toInt_eq_low_bits (imm : Word) : BitVec.ofInt 12 imm.toInt = imm.extractLsb' 0 12 := by
  rw [← BitVec.setWidth_eq_extractLsb' (by decide)]
  apply BitVec.eq_of_toNat_eq
  have h := natCast_toNat_ofInt 12 imm.toInt
  rw [BitVec.toInt_eq_toNat_bmod, Int.bmod_def] at h
  rw [BitVec.toNat_setWidth, BitVec.toInt_eq_toNat_bmod, Int.bmod_def]
  omega

/-- Twelve bits spell an integer exactly when it lies in their signed range. -/
theorem toInt_ofInt_twelve_eq_iff (v : Int) : (BitVec.ofInt 12 v).toInt = v ↔ -2048 ≤ v ∧ v ≤ 2047 := by
  rw [BitVec.toInt_ofInt, Int.bmod_def]
  omega

/-- Settles O40: the word's field holds the low twelve bits of the executed immediate. -/
theorem encodedAndExecutedImmediatesDiffer : Obligations.EncodedAndExecutedImmediatesDiffer := by
  intro src rd rs1 imm h
  refine ⟨_, encodeLine_of_decode_addi h, ?_, ?_⟩
  · rw [addiWord_imm, ofInt_toInt_eq_low_bits]
  · rw [addiWord_imm, toInt_ofInt_twelve_eq_iff]

end Sys2Proof.Proofs.Encoder
end

section
/-! SUPPORT. The engine: the step by what the line at the PC decodes to, the run state, the redirects, and the executor
of the run loop (spec/40_engine.md R90 to R103; spec/60_exceptions.md R172). -/

namespace Sys2Proof.Proofs.Engine

open Sys2Proof.Machine Sys2Proof.Proofs.AddressSpace

/-! ## One step -/

/-- Settles O14: over the halt condition the step is the halt. -/
theorem haltConditionEndsTheRun : Obligations.HaltConditionEndsTheRun := fun _ => step_of_haltCondition

theorem step_of_decode_instr {s : State} {src : Text} {i : Instr} (h : s.RunsLine src) (hd : decode src = .instr i) :
    step s = exec i s := by
  rw [step_of_runsLine h, hd, execDecoded]

/-- Settles O15: the engine runs what the line decodes to. -/
theorem stepRunsTheDecodedInstruction : Obligations.StepRunsTheDecodedInstruction :=
  fun _ _ _ => step_of_decode_instr

theorem step_of_decode_invalid {s : State} {src : Text} {r : FaultReason} {k : Nat} (h : s.RunsLine src)
    (hd : decode src = .invalid r k) : step s = .next (s.raiseInvalidOperand r k src) := by
  rw [step_of_runsLine h, hd, execDecoded]

theorem step_of_decode_unknown {s : State} {src : Text} (h : s.RunsLine src) (hd : decode src = .unknown) :
    step s = .next { s with pc := s.pc + 4 } := by
  rw [step_of_runsLine h, hd]
  rfl

/-- Settles O16: such a line decodes to the unknown mnemonic, whose effect is empty, and is no ADDI line. -/
theorem unknownMnemonicOnlyAdvancesThePc : Obligations.UnknownMnemonicOnlyAdvancesThePc :=
  fun _ src h => ⟨Encoder.everyOtherLineEncodesToEmpty src (h .addi),
    fun hrun => step_of_decode_unknown hrun (Decoder.decode_of_no_mnemonic h)⟩

/-- R100: the halt and each outcome of the decoder have a next state. -/
theorem step_next_of_running {s : State} (h : s.run = .running) : ∃ t, step s = .next t := by
  cases hf : fetchLine s with
  | none => exact ⟨_, step_of_haltCondition h (fetchLine_eq_none.1 hf)⟩
  | some src =>
    have hrun : s.RunsLine src := runsLine_iff.2 ⟨h, hf⟩
    cases hd : decode src with
    | unknown => exact ⟨_, step_of_decode_unknown hrun hd⟩
    | instr i => exact ⟨_, (step_of_decode_instr hrun hd).trans (exec_eq_commit i s)⟩
    | invalid r k => exact ⟨_, step_of_decode_invalid hrun hd⟩

theorem step_draws {s t : State} (h : step s = .next t) : t.draws = s.draws := by
  obtain ⟨-, ⟨-, rfl⟩ | ⟨src, -, ⟨-, rfl⟩ | ⟨i, -, rfl⟩ | ⟨r, k, -, rfl⟩⟩⟩ := step_cases h
  · exact State.halt_draws s
  · exact State.commit_draws s _
  · exact State.commit_draws s _
  · exact State.raiseInvalidOperand_draws s r k src

/-- Settles O20: a running step has a next state, and none of the things a step can do draws a free value. -/
theorem runningStepAlwaysCompletes : Obligations.RunningStepAlwaysCompletes := by
  intro s hr
  obtain ⟨t, ht⟩ := step_next_of_running hr
  exact ⟨t, ht, step_draws ht⟩

/-! ## The run state -/

theorem hostRun_of_halted {p : Int} {s : State} (hr : s.run = .halted) (hp : InRange p) :
    hostRun p s = .next ((s.setPc (Word.ofInteger p)).setRun .running) := by
  rw [hostRun, hr]
  exact if_pos hp

theorem hostRun_of_faulted {s : State} (p : Int) (hr : s.run = .faulted) : hostRun p s = .next s := by
  rw [hostRun, hr]

theorem toInt_ofInteger {v : Int} (h : InRange v) : (Word.ofInteger v).toInt = v := by
  rw [BitVec.toInt_ofInt, Int.bmod_def]
  omega

/-- Settles O46: in HALTED `run` writes the PC and the run state alone, and in FAULTED nothing. -/
theorem runStartsWithoutResetting : Obligations.RunStartsWithoutResetting :=
  fun p _ hp => ⟨fun hr => ⟨_, hostRun_of_halted hr hp, toInt_ofInteger hp, rfl, fun _ => rfl, fun _ => rfl, rfl, rfl⟩,
    hostRun_of_faulted p⟩

theorem step_run_cases {s t : State} (h : step s = .next t) : s.run = .running ∧
    ((t.run = .halted ∧ s.HaltCondition) ∨
     (t.run = .faulted ∧ ∃ src r k, s.RunsLine src ∧ decode src = .invalid r k) ∨
     (t.run = .running ∧ ∃ src, s.RunsLine src ∧ ∀ r k, decode src ≠ .invalid r k)) := by
  obtain ⟨hr, hcases⟩ := step_cases h
  refine ⟨hr, ?_⟩
  obtain ⟨hf, rfl⟩ | ⟨src, hf, hline⟩ := hcases
  · exact .inl ⟨rfl, fetchLine_eq_none.1 hf⟩
  · have hrun : s.RunsLine src := runsLine_iff.2 ⟨hr, hf⟩
    obtain ⟨hd, rfl⟩ | ⟨i, hd, rfl⟩ | ⟨r, k, hd, rfl⟩ := hline
    · exact .inr (.inr ⟨(State.commit_run s _).trans hr, src, hrun, by simp [hd]⟩)
    · exact .inr (.inr ⟨(State.commit_run s _).trans hr, src, hrun, by simp [hd]⟩)
    · exact .inr (.inl ⟨rfl, src, r, k, hrun, hd⟩)

/-- Settles O19: the run state after each thing a step can do, after each start of a run and after a reset. -/
theorem runStateTransitions : Obligations.RunStateTransitions :=
  ⟨fun _ _ => step_run_cases, fun _ _ hr hp => ⟨_, hostRun_of_halted hr hp, rfl⟩, fun _ => hostRun_of_faulted,
    fun _ => rfl⟩

theorem hostOp_keeps_faulted {op : HostOp} {s t : State} (hr : s.run = .faulted) (h : hostOp op s = .next t)
    (hop : op ≠ .reset) : t.run = .faulted ∧ t.fault = s.fault := by
  cases op with
  | reset => exact absurd rfl hop
  | loadInstructions lines a =>
    obtain ⟨-, -, -, rfl⟩ := loadInstructions_next h
    exact ⟨hr, rfl⟩
  | loadData es =>
    obtain ⟨-, -, -, rfl⟩ := loadData_next h
    exact ⟨hr, rfl⟩
  | setRegister i v =>
    obtain ⟨-, rfl⟩ := setRegister_next h
    exact ⟨(State.writeReg_run s i v).trans hr, State.writeReg_fault s i v⟩
  | run p =>
    obtain rfl : s = t := by simpa [hostOp, hostRun_of_faulted p hr] using h
    exact ⟨hr, rfl⟩

/-- Settles O18: the fault writes two fields, and in FAULTED no step and no host operation but reset writes either. -/
theorem invalidOperandFaultIsPreciseAndSticky : Obligations.InvalidOperandFaultIsPreciseAndSticky := by
  refine ⟨fun s src r k => step_of_decode_invalid, fun s hr => ?_⟩
  have hnot : s.run ≠ .running := by simp [hr]
  exact ⟨fun t h => hnot (step_cases h).1, rfl, fun p => hostRun_of_faulted p hr, fun _ _ => hostOp_keeps_faulted hr,
    _, hostOp_reset_of_not_running hnot, rfl, rfl⟩

/-! ## Redirects -/

theorem effectOf_of_redirects {s : State} {src : Text} {imm : Word} (h : Redirects s src imm) :
    ∃ i, decode src = .instr i ∧ (effectOf i s).redirect = some (s.pc + imm) := by
  obtain ⟨rd, hd⟩ | ⟨rs1, rs2, hd, heq⟩ | ⟨rs1, rs2, hd, hne⟩ := h
  · exact ⟨_, hd, rfl⟩
  · exact ⟨_, hd, by simp [effectOf, branchEffect, branchTarget, wordsEqual, heq]⟩
  · exact ⟨_, hd, by simp [effectOf, branchEffect, branchTarget, wordsEqual, hne]⟩

theorem redirects_of_effectOf {s : State} {src : Text} {i : Instr} {target : Word} (hd : decode src = .instr i)
    (h : (effectOf i s).redirect = some target) : ∃ imm, Redirects s src imm := by
  cases i with
  | beq rs1 rs2 imm =>
    have htaken : s.readReg rs1 = s.readReg rs2 := by
      simpa [wordsEqual] using (Option.ite_none_right_eq_some.1 h).1
    exact ⟨imm, .inr (.inl ⟨rs1, rs2, hd, htaken⟩)⟩
  | bne rs1 rs2 imm =>
    have htaken : s.readReg rs1 ≠ s.readReg rs2 := by
      simpa [wordsEqual] using (Option.ite_none_right_eq_some.1 h).1
    exact ⟨imm, .inr (.inr ⟨rs1, rs2, hd, htaken⟩)⟩
  | jal rd imm => exact ⟨imm, .inl ⟨rd, hd⟩⟩
  | _ => cases h

/-- Settles O21: a step that stays RUNNING commits an effect, and its redirect is that of a taken branch or a jump. -/
theorem onlyBranchesAndJumpsRedirect : Obligations.OnlyBranchesAndJumpsRedirect := by
  intro s t src hrun hstep ht
  cases hd : decode src with
  | unknown =>
    rw [step_of_decode_unknown hrun hd] at hstep
    cases hstep
    refine ⟨fun imm hred => ?_, fun _ => rfl⟩
    obtain ⟨i, hi, -⟩ := effectOf_of_redirects hred
    simp [hd] at hi
  | instr i =>
    rw [step_of_decode_instr hrun hd, exec_eq_commit] at hstep
    cases hstep
    rw [State.commit_pc]
    refine ⟨fun imm hred => ?_, fun hno => ?_⟩
    · obtain ⟨j, hj, hredirect⟩ := effectOf_of_redirects hred
      obtain rfl : i = j := by simpa [hd] using hj
      rw [hredirect, Option.getD_some]
    · cases hredirect : (effectOf i s).redirect with
      | none => rfl
      | some target =>
        obtain ⟨imm, hred⟩ := redirects_of_effectOf hd hredirect
        exact absurd hred (hno imm)
  | invalid r k =>
    rw [step_of_decode_invalid hrun hd] at hstep
    cases hstep
    cases ht

/-! ## The executor of the run loop -/

theorem runLoopFrom_of_not_running {s : State} (fuel count : Nat) (h : s.run ≠ .running) :
    runLoopFrom fuel count s = ⟨s, count, true⟩ := by
  cases fuel with
  | zero => simp [runLoopFrom, h]
  | succ fuel =>
    cases hstep : step s with
    | next t => exact absurd (step_cases hstep).1 h
    | fault r => simp [runLoopFrom, hstep, h]
    | refused r => simp [runLoopFrom, hstep, h]

theorem runLoopFrom_succ_of_next {s t : State} (fuel count : Nat) (h : step s = .next t) :
    runLoopFrom (fuel + 1) count s = runLoopFrom fuel (if t.run = .running then count + 1 else count) t := by
  rw [runLoopFrom, h]

theorem stepN_succ_of_next {s t : State} (n : Nat) (h : step s = .next t) : stepN (n + 1) s = stepN n t := by
  rw [stepN, h]

/-- What the executor found from a RUNNING state: its whole budget run and no end, or an end after fewer steps. -/
theorem runLoopFrom_cases (fuel count : Nat) {s : State} (hr : s.run = .running) :
    (∃ t, runLoopFrom fuel count s = ⟨t, count + fuel, false⟩ ∧ t.run = .running ∧ stepN fuel s = .next t) ∨
    ∃ t n, runLoopFrom fuel count s = ⟨t, count + n, true⟩ ∧ t.run ≠ .running ∧ n < fuel ∧
      stepN (n + 1) s = .next t := by
  induction fuel generalizing count s with
  | zero => exact .inl ⟨s, by simp [runLoopFrom, hr], hr, rfl⟩
  | succ fuel ih =>
    obtain ⟨u, hstep⟩ := step_next_of_running hr
    rw [runLoopFrom_succ_of_next fuel count hstep]
    by_cases hu : u.run = .running
    · rw [if_pos hu, stepN_succ_of_next fuel hstep]
      obtain ⟨t, hloop, ht, hsteps⟩ | ⟨t, n, hloop, ht, hn, hsteps⟩ := ih (count + 1) hu
      · exact .inl ⟨t, by rw [hloop, Nat.add_assoc, Nat.add_comm 1], ht, hsteps⟩
      · exact .inr ⟨t, n + 1, by rw [hloop, Nat.add_assoc, Nat.add_comm 1], ht, by omega,
          (stepN_succ_of_next (n + 1) hstep).trans hsteps⟩
    · rw [if_neg hu]
      exact .inr ⟨u, 0, runLoopFrom_of_not_running fuel count hu, hu, Nat.succ_pos fuel, stepN_succ_of_next 0 hstep⟩

/-- Settles O48: the two things the executor can find, from the count 0. -/
theorem executorReportsOnlyRealEnds : Obligations.ExecutorReportsOnlyRealEnds := by
  intro fuel s hr
  rw [runLoop]
  obtain ⟨t, hloop, ht, hsteps⟩ | ⟨t, n, hloop, ht, hn, hsteps⟩ := runLoopFrom_cases fuel 0 hr
  · rw [hloop, Nat.zero_add]
    exact ⟨by simp [ht], fun _ => ⟨hsteps, rfl⟩, by simp⟩
  · rw [hloop, Nat.zero_add]
    exact ⟨by simp [ht], by simp, fun _ => ⟨hn, hsteps⟩⟩

theorem runLoopFrom_add_of_ended {fuel count : Nat} {s : State} (more : Nat)
    (h : (runLoopFrom fuel count s).ended = true) : runLoopFrom (fuel + more) count s = runLoopFrom fuel count s := by
  induction fuel generalizing count s with
  | zero =>
    have hnot : s.run ≠ .running := of_decide_eq_true h
    rw [runLoopFrom_of_not_running _ _ hnot, runLoopFrom_of_not_running _ _ hnot]
  | succ fuel ih =>
    by_cases hr : s.run = .running
    · obtain ⟨t, hstep⟩ := step_next_of_running hr
      rw [runLoopFrom_succ_of_next fuel count hstep] at h ⊢
      rw [Nat.add_right_comm, runLoopFrom_succ_of_next (fuel + more) count hstep]
      exact ih h
    · rw [runLoopFrom_of_not_running _ _ hr, runLoopFrom_of_not_running _ _ hr]

/-- Settles O49: by induction on the budget; a state that is not RUNNING is reported as it is under every budget. -/
theorem endedRunIsTheSameUnderMoreFuel : Obligations.EndedRunIsTheSameUnderMoreFuel :=
  fun _ more _ _ => runLoopFrom_add_of_ended more

end Sys2Proof.Proofs.Engine
end

section
/-! SUPPORT. The ALU and its five instructions: what an instruction with a register result leaves, the encoder's outcome
for its line, and the arithmetic of the ALU (spec/41_alu.md R110 to R116). -/

namespace Sys2Proof.Proofs.Alu

open Sys2Proof.Machine Sys2Proof.Proofs.Encoder

/-! ## An instruction with a register result -/

theorem commit_regWritten {s : State} {e : Effect} {rd : RegIdx} {v : Word} (h : e.reg = some (rd, v)) :
    RegWritten s (s.commit e) rd v :=
  State.commit_readReg_some s e h

theorem commit_sameMem {s : State} {e : Effect} (h : e.mem = none) : SameMem s (s.commit e) :=
  State.commit_readMem_none s e h

theorem commit_sameControl (s : State) (e : Effect) : SameControl s (s.commit e) :=
  ⟨State.commit_run s e, State.commit_fault s e, State.commit_draws s e⟩

/-- An instruction whose effect is one register write completes, writes that register, and advances the PC by 4. -/
theorem exec_of_effectOf_reg {i : Instr} {s : State} {rd : RegIdx} {v : Word}
    (h : effectOf i s = { reg := some (rd, v) }) :
    ∃ t, exec i s = .next t ∧ RegWritten s t rd v ∧ t.pc = s.pc + 4 ∧ SameMem s t ∧ t.diag = s.diag ∧
      SameControl s t := by
  refine ⟨_, exec_eq_commit i s, ?_⟩
  rw [h]
  have hpc := State.commit_pc s { reg := some (rd, v) }
  have hdiag := State.commit_diag s { reg := some (rd, v) }
  exact ⟨commit_regWritten rfl, hpc, commit_sameMem rfl, hdiag.trans (List.append_nil _), commit_sameControl s _⟩

/-! ## The encoder's outcome for the line of an instruction -/

/-- R76, R77: every instruction but ADDI. -/
theorem encodingIs_empty {i : Instr} (h : i.written.mnemonic ≠ .addi) : EncodingIs i i.written.mnemonic .empty := by
  intro src hd
  obtain ⟨ops, ht, -⟩ := decode_eq_instr hd
  have hfirst : (tokens src)[0]? = some i.written.mnemonic.text := by rw [ht]; rfl
  refine ⟨hfirst, everyOtherLineEncodesToEmpty src fun haddi => h ?_⟩
  exact Mnemonic.text_injective (Option.some.inj (hfirst.symm.trans haddi))

theorem addiWord_of_operands (imm : Word) (rs1 rd : RegIdx) :
    addiWord imm.toInt (rs1.val : Int) (rd.val : Int) =
      imm.extractLsb' 0 12 ++ BitVec.ofNat 5 rs1.val ++ 0b000#3 ++ BitVec.ofNat 5 rd.val ++ 0b0010011#7 := by
  rw [addiWord, ofInt_toInt_eq_low_bits, BitVec.ofInt_natCast, BitVec.ofInt_natCast]

theorem encodingIs_addi (rd rs1 : RegIdx) (imm : Word) :
    EncodingIs (.addi rd rs1 imm) .addi
      (.word (imm.extractLsb' 0 12 ++ BitVec.ofNat 5 rs1.val ++ 0b000#3 ++ BitVec.ofNat 5 rd.val ++ 0b0010011#7)) := by
  intro src hd
  obtain ⟨ops, ht, -⟩ := decode_eq_instr hd
  refine ⟨by rw [ht]; rfl, ?_⟩
  rw [encodeLine_of_decode_addi hd, addiWord_of_operands]

/-! ## The five instructions -/

/-- Settles O1: ADD's effect is one register write, and its line is no ADDI line. -/
theorem addWritesTheWrappedSum : Obligations.AddWritesTheWrappedSum :=
  fun _ _ _ _ => ⟨exec_of_effectOf_reg rfl, encodingIs_empty nofun⟩

/-- Settles O2: SUB's effect is one register write, and its line is no ADDI line. -/
theorem subWritesTheWrappedDifference : Obligations.SubWritesTheWrappedDifference :=
  fun _ _ _ _ => ⟨exec_of_effectOf_reg rfl, encodingIs_empty nofun⟩

/-- Settles O3: AND's effect is one register write, and its line is no ADDI line. -/
theorem andWritesTheBitwiseAnd : Obligations.AndWritesTheBitwiseAnd :=
  fun _ _ _ _ => ⟨exec_of_effectOf_reg rfl, encodingIs_empty nofun⟩

/-- Settles O4: OR's effect is one register write, and its line is no ADDI line. -/
theorem orWritesTheBitwiseOr : Obligations.OrWritesTheBitwiseOr :=
  fun _ _ _ _ => ⟨exec_of_effectOf_reg rfl, encodingIs_empty nofun⟩

/-- Settles O5: ADDI's effect adds the full immediate, its word keeps the low twelve bits, and an ADDI line with an
operand that the encoder cannot read has no word. -/
theorem addiAddsTheFullImmediate : Obligations.AddiAddsTheFullImmediate :=
  fun rd rs1 imm _ => ⟨exec_of_effectOf_reg rfl, encodingIs_addi rd rs1 imm, fun _ _ => encodeLine_of_not_readable⟩

/-! ## The arithmetic of the ALU -/

theorem alu_add_eq_ofInt (p q : Word) : alu .add p q = BitVec.ofInt 32 (p.toInt + q.toInt) := by
  rw [alu, ← BitVec.toInt_inj, BitVec.toInt_add, BitVec.toInt_ofInt]

theorem alu_sub_eq_ofInt (p q : Word) : alu .sub p q = BitVec.ofInt 32 (p.toInt - q.toInt) := by
  rw [alu, ← BitVec.toInt_inj, BitVec.toInt_sub, BitVec.toInt_ofInt]

/-- R116: an integer that at most one wrap brings into range is read back off by `2^32` when it lies outside. -/
theorem toInt_ofInt_of_one_wrap {v : Int} (hlo : -4294967296 ≤ v) (hhi : v ≤ 4294967295) :
    (BitVec.ofInt 32 v).toInt =
      if 2147483647 < v then v - 4294967296 else if v < -2147483648 then v + 4294967296 else v := by
  rw [BitVec.toInt_ofInt, Int.bmod_def]
  omega

/-- The signed reading of a sum or a difference: neither leaves the range by more than one wrap. -/
theorem toInt_alu_of_sum_or_difference {p q : Word} {op : AluOp} {v : Int}
    (h : (op = .add ∧ v = p.toInt + q.toInt) ∨ (op = .sub ∧ v = p.toInt - q.toInt)) :
    (alu op p q).toInt =
      if 2147483647 < v then v - 4294967296 else if v < -2147483648 then v + 4294967296 else v := by
  obtain ⟨hp_lo, hp_hi⟩ := inRange_toInt p
  obtain ⟨hq_lo, hq_hi⟩ := inRange_toInt q
  obtain ⟨rfl, rfl⟩ | ⟨rfl, rfl⟩ := h
  · rw [alu_add_eq_ofInt]
    exact toInt_ofInt_of_one_wrap (by omega) (by omega)
  · rw [alu_sub_eq_ofInt]
    exact toInt_ofInt_of_one_wrap (by omega) (by omega)

/-- Settles O11: a sum or a difference keeps its low 32 bits and wraps at most once; AND and OR act on each bit. -/
theorem aluIsExactModuloTwoToThe32 : Obligations.AluIsExactModuloTwoToThe32 :=
  fun p q => ⟨alu_add_eq_ofInt p q, alu_sub_eq_ofInt p q, fun _ _ => toInt_alu_of_sum_or_difference,
    fun _ => BitVec.getLsbD_and, fun _ => BitVec.getLsbD_or⟩

end Sys2Proof.Proofs.Alu
end

section
/-! SUPPORT. The load-store unit: the effective address, what LW takes from a slot, what SW leaves there, and the round
trip (spec/42_load_store.md R130 to R134; spec/20_memory.md R56). -/

namespace Sys2Proof.Proofs.LoadStore

open Sys2Proof.Machine Sys2Proof.Proofs.AddressSpace Sys2Proof.Proofs.Alu

/-! ## The effective address -/

/-- R56: the sum of the two signed readings, off by a multiple of `2^32`. -/
theorem toInt_add_eq_sum_add_multiple (p q : Word) : ∃ k : Int, (p + q).toInt = p.toInt + q.toInt + 4294967296 * k := by
  refine ⟨-(p.toInt + q.toInt).bdiv 4294967296, ?_⟩
  rw [BitVec.toInt_add, Int.bmod_eq_self_sub_mul_bdiv]
  ring

/-- Settles O12: the signed reading of a word is in range, and that of a sum is exact up to multiples of `2^32`. -/
theorem effectiveAddressWrapsIntoRange : Obligations.EffectiveAddressWrapsIntoRange :=
  fun s rs1 imm => ⟨inRange_toInt _, toInt_add_eq_sum_add_multiple (s.readReg rs1) imm⟩

/-! ## The load: the rows of R131, and LW -/

theorem loadValue_num_of_inRange (ea : Int) {v : Int} (h : InRange v) :
    loadValue ea (some (.data (.num v))) = (Word.ofInteger v, none) :=
  if_pos h

theorem loadValue_num_of_not_inRange (ea : Int) {v : Int} (h : ¬ InRange v) :
    loadValue ea (some (.data (.num v))) = (0, some ⟨.malformed, ea⟩) :=
  if_neg h

theorem loadValue_malformed (ea : Int) : loadValue ea (some (.data .malformed)) = (0, some ⟨.malformed, ea⟩) := rfl

theorem loadValue_code (ea : Int) (enc : Encoding) (src : Text) :
    loadValue ea (some (.code enc src)) = (0, some ⟨.malformed, ea⟩) := rfl

theorem loadValue_none (ea : Int) : loadValue ea none = (0, some ⟨.noSlot, ea⟩) := rfl

/-- R132: LW writes the value and appends the diagnostic that the load takes from the slot at the effective address. -/
theorem exec_lw_next (rd : RegIdx) (imm : Word) (rs1 : RegIdx) (s : State) :
    ∃ t, exec (.lw rd imm rs1) s = .next t ∧ t.pc = s.pc + 4 ∧ SameMem s t ∧ SameControl s t ∧
      ∀ x w d, s.readMem (effectiveAddress s rs1 imm) = x → loadValue (effectiveAddress s rs1 imm) x = (w, d) →
        RegWritten s t rd w ∧ t.diag = s.diag ++ d.toList := by
  refine ⟨_, exec_eq_commit _ s, State.commit_pc s _, commit_sameMem rfl, commit_sameControl s _, ?_⟩
  rintro _ w d rfl hload
  constructor
  · exact commit_regWritten (by simp only [effectOf, hload])
  · simp only [State.commit_diag, effectOf, hload]

/-- Settles O6: each kind of content is a row of the load's table. -/
theorem lwLoadsTheSlotOrLogsADiagnostic : Obligations.LwLoadsTheSlotOrLogsADiagnostic := by
  rintro rd imm rs1 s _ rfl
  obtain ⟨t, hexec, hpc, hmem, hcontrol, hload⟩ := exec_lw_next rd imm rs1 s
  refine ⟨⟨t, hexec, hpc, hmem, hcontrol, fun v hslot hv => ?_, fun v hslot hv => ?_, fun hslot => ?_,
    fun enc src hslot => ?_, fun hslot => ?_⟩, encodingIs_empty nofun⟩
  · exact (hload _ _ _ hslot (loadValue_num_of_inRange _ hv)).imp_right fun hdiag => hdiag.trans (List.append_nil _)
  · exact hload _ _ _ hslot (loadValue_num_of_not_inRange _ hv)
  · exact hload _ _ _ hslot (loadValue_malformed _)
  · exact hload _ _ _ hslot (loadValue_code _ enc src)
  · exact hload _ _ _ hslot (loadValue_none _)

/-! ## The store -/

/-- R133: SW stores the signed reading of `rs2` at the effective address, and otherwise only advances the PC. -/
theorem exec_sw_next (rs2 : RegIdx) (imm : Word) (rs1 : RegIdx) (s : State) :
    ∃ t, exec (.sw rs2 imm rs1) s = .next t ∧ t.pc = s.pc + 4 ∧ SameRegs s t ∧ t.diag = s.diag ∧ SameControl s t ∧
      ∀ a, t.readMem a =
        if a = effectiveAddress s rs1 imm then some (.data (.num (s.readReg rs2).toInt)) else s.readMem a :=
  ⟨_, exec_eq_commit _ s, State.commit_pc s _, State.commit_readReg_none s _ rfl,
    (State.commit_diag s _).trans (List.append_nil _), commit_sameControl s _, State.commit_readMem_some s _ rfl⟩

/-- Settles O7: the slot at the effective address is the one that SW writes, and its line is no ADDI line. -/
theorem swStoresTheSignedReading : Obligations.SwStoresTheSignedReading := by
  rintro rs2 imm rs1 s _ rfl
  obtain ⟨t, hexec, hpc, hregs, hdiag, hcontrol, hmem⟩ := exec_sw_next rs2 imm rs1 s
  exact ⟨⟨t, hexec, hpc, hregs, hdiag, hcontrol, (hmem _).trans (if_pos rfl), inRange_toInt _,
    fun a ha => (hmem a).trans (if_neg ha)⟩, encodingIs_empty nofun⟩

/-! ## The round trip -/

/-- A word's signed reading, once stored, loads as the word. -/
theorem loadValue_toInt (ea : Int) (w : Word) : loadValue ea (some (.data (.num w.toInt))) = (w, none) := by
  rw [loadValue_num_of_inRange ea (inRange_toInt w), Word.ofInteger, BitVec.ofInt_toInt]

/-- Settles O13: the slot that SW left still stands where LW loads, and its number reads back as the stored word. -/
theorem storeThenLoadReturnsTheValue : Obligations.StoreThenLoadReturnsTheValue := by
  rintro rs2 imm rs1 rd imm' rs1' s t u _ rfl hsw hea hkept
  obtain ⟨-, hstored⟩ := exec_sw_pc_readMem hsw
  have hslot : u.readMem (effectiveAddress u rs1' imm') = some (.data (.num (s.readReg rs2).toInt)) :=
    (congrArg u.readMem hea).trans (hkept.trans hstored)
  obtain ⟨v, hexec, -, -, -, hload⟩ := exec_lw_next rd imm' rs1' u
  obtain ⟨hreg, hdiag⟩ := hload _ _ _ hslot (loadValue_toInt _ _)
  exact ⟨v, hexec, hreg, hdiag.trans (List.append_nil _)⟩

end Sys2Proof.Proofs.LoadStore
end

section
/-! SUPPORT. The branch controller: the next state of BEQ, BNE and JAL, the step of a line that redirects, and what a
redirect by 0 and one to `-1` lead to (spec/43_branch_jump.md R150 to R157). -/

namespace Sys2Proof.Proofs.BranchJump

open Sys2Proof.Machine Sys2Proof.Proofs.AddressSpace Sys2Proof.Proofs.Engine Sys2Proof.Proofs.Alu

/-! ## The three instructions -/

theorem wordsEqual_eq_true {p q : Word} : wordsEqual p q = true ↔ p = q := beq_iff_eq

theorem not_wordsEqual_eq_true {p q : Word} : (!wordsEqual p q) = true ↔ p ≠ q := by
  rw [Bool.not_eq_true', ← Bool.not_eq_true, Ne, wordsEqual_eq_true]

/-- R150: a branch writes the PC and nothing else. -/
theorem commit_branchEffect (s : State) (taken : Bool) (imm : Word) :
    s.commit (branchEffect s taken imm) = s.setPc (if taken then s.pc + imm else s.pc + 4) := by
  cases taken <;> rfl

theorem exec_beq (rs1 rs2 : RegIdx) (imm : Word) (s : State) : exec (.beq rs1 rs2 imm) s =
    .next (s.setPc (if s.readReg rs1 = s.readReg rs2 then s.pc + imm else s.pc + 4)) := by
  simp only [exec_eq_commit, effectOf, commit_branchEffect, wordsEqual_eq_true]

theorem exec_bne (rs1 rs2 : RegIdx) (imm : Word) (s : State) : exec (.bne rs1 rs2 imm) s =
    .next (s.setPc (if s.readReg rs1 ≠ s.readReg rs2 then s.pc + imm else s.pc + 4)) := by
  simp only [exec_eq_commit, effectOf, commit_branchEffect, not_wordsEqual_eq_true]

theorem exec_jal (rd : RegIdx) (imm : Word) (s : State) :
    exec (.jal rd imm) s = .next ((s.writeReg rd (s.pc + 4)).setPc (s.pc + imm)) :=
  exec_eq_commit _ s

/-- Settles O8: BEQ writes the PC alone, and its line is no ADDI line. -/
theorem beqBranchesWhenEqual : Obligations.BeqBranchesWhenEqual :=
  fun rs1 rs2 imm s => ⟨⟨_, exec_beq rs1 rs2 imm s, rfl, fun _ => rfl, fun _ => rfl, rfl, rfl, rfl, rfl⟩,
    encodingIs_empty nofun⟩

/-- Settles O9: BNE writes the PC alone, and its line is no ADDI line. -/
theorem bneBranchesWhenNotEqual : Obligations.BneBranchesWhenNotEqual :=
  fun rs1 rs2 imm s => ⟨⟨_, exec_bne rs1 rs2 imm s, rfl, fun _ => rfl, fun _ => rfl, rfl, rfl, rfl, rfl⟩,
    encodingIs_empty nofun⟩

/-- Settles O10: JAL writes the link, then the PC, and its line is no ADDI line. -/
theorem jalLinksAndJumps : Obligations.JalLinksAndJumps :=
  fun rd imm s => ⟨⟨_, exec_jal rd imm s, fun r => State.readReg_writeReg s rd r _, rfl, State.writeReg_readMem s rd _,
    State.writeReg_diag s rd _, State.writeReg_run s rd _, State.writeReg_fault s rd _, State.writeReg_draws s rd _⟩,
    encodingIs_empty nofun⟩

/-! ## The step of a line that redirects -/

/-- A redirect goes on RUNNING at its target over the same memory; a taken branch changes the PC alone. -/
theorem step_of_redirects {s : State} {src : Text} {imm : Word} (h : s.RunsLine src) (hred : Redirects s src imm) :
    ∃ t, step s = .next t ∧ t.pc = s.pc + imm ∧ t.run = .running ∧ SameMem s t ∧
      ((∀ rd, decode src ≠ .instr (.jal rd imm)) → t = s.setPc (s.pc + imm)) := by
  have hr : s.run = .running := h.1
  obtain ⟨rd, hd⟩ | ⟨rs1, rs2, hd, heq⟩ | ⟨rs1, rs2, hd, hne⟩ := hred
  · exact ⟨_, (step_of_decode_instr h hd).trans (exec_jal rd imm s), rfl, (State.writeReg_run s rd _).trans hr,
      State.writeReg_readMem s rd _, fun hno => absurd hd (hno rd)⟩
  · have hstep := (step_of_decode_instr h hd).trans (exec_beq rs1 rs2 imm s)
    rw [if_pos heq] at hstep
    exact ⟨_, hstep, rfl, hr, fun _ => rfl, fun _ => rfl⟩
  · have hstep := (step_of_decode_instr h hd).trans (exec_bne rs1 rs2 imm s)
    rw [if_pos hne] at hstep
    exact ⟨_, hstep, rfl, hr, fun _ => rfl, fun _ => rfl⟩

/-! ## A redirect by 0 -/

theorem runsLine_congr {s t : State} {src : Text} (h : s.RunsLine src) (hr : t.run = .running) (hpc : t.pc = s.pc)
    (hmem : SameMem s t) : t.RunsLine src := by
  obtain ⟨-, hsentinel, enc, hslot⟩ := h
  exact ⟨hr, hpc ▸ hsentinel, enc, by rw [hpc, hmem, hslot]⟩

/-- R156: a redirect by 0 leads to a state that makes it again. The link that JAL writes is no operand of its own. -/
theorem step_of_redirects_zero {s : State} {src : Text} (h : s.RunsLine src) (hred : Redirects s src 0) :
    ∃ t, step s = .next t ∧ t.pc = s.pc ∧ t.RunsLine src ∧ Redirects t src 0 ∧
      ((∀ rd, decode src ≠ .instr (.jal rd 0)) → t = s) := by
  obtain ⟨t, hstep, hpc, hr, hmem, hbranch⟩ := step_of_redirects h hred
  have htarget : s.pc + 0 = s.pc := BitVec.add_zero s.pc
  rw [htarget] at hpc hbranch
  refine ⟨t, hstep, hpc, runsLine_congr h hr hpc hmem, ?_, hbranch⟩
  by_cases hjal : ∃ rd, decode src = .instr (.jal rd 0)
  · exact .inl hjal
  · obtain rfl : t = s := hbranch (not_exists.1 hjal)
    exact hred

/-- Settles O27: by induction on the number of steps, each of which leads to a state that redirects by 0 again. -/
theorem redirectByZeroNeverEnds : Obligations.RedirectByZeroNeverEnds := by
  intro s src h hred n
  induction n generalizing s with
  | zero => exact ⟨s, rfl, rfl, h.1, h, fun _ => rfl⟩
  | succ n ih =>
    obtain ⟨t, hstep, htpc, ht, htred, hts⟩ := step_of_redirects_zero h hred
    obtain ⟨u, hsteps, hupc, hur, hu, hut⟩ := ih t ht htred
    exact ⟨u, (stepN_succ_of_next n hstep).trans hsteps, hupc.trans htpc, hur, hu,
      fun hno => (hut hno).trans (hts hno)⟩

/-- RedirectByZeroNeverEnds: a machine that runs a taken BNE by 0. -/
theorem witness_bne_by_zero :
    let line := "BNE 1 0 0".toList
    let s := { State.reset with run := .running, mem := [(0, .code .empty line)] }.writeReg 1 7
    s.RunsLine line ∧ Redirects s line 0 :=
  ⟨⟨rfl, by decide, .empty, by decide⟩, .inr (.inr ⟨1, 0, by decide, by decide⟩)⟩

/-! ## A redirect to the halt sentinel -/

/-- Settles O28: the redirect goes on RUNNING at `-1`, and there the halt condition holds before memory is read. -/
theorem redirectToMinusOneHalts : Obligations.RedirectToMinusOneHalts := by
  intro s src imm h hred htarget
  obtain ⟨t, hstep, hpc, hr, -, -⟩ := step_of_redirects h hred
  have hsentinel : t.pc = 0xFFFFFFFF := hpc.trans htarget
  exact ⟨t, hstep, hsentinel, hr, step_of_haltCondition hr (.inl hsentinel)⟩

/-- RedirectToMinusOneHalts: a machine that runs a jump to `-1`, where a code slot stands. -/
theorem witness_jump_to_minus_one :
    let line := "JAL 0 -1".toList
    let s := { State.reset with run := .running, mem := [(-1, .code .empty line), (0, .code .empty line)] }
    s.RunsLine line ∧ Redirects s line 0xFFFFFFFF ∧ s.pc + 0xFFFFFFFF = 0xFFFFFFFF ∧
      s.readMem (-1) = some (.code .empty line) :=
  ⟨⟨rfl, by decide, .empty, by decide⟩, .inl ⟨0, by decide⟩, by decide, by decide⟩

end Sys2Proof.Proofs.BranchJump
end

section
/-! SUPPORT. The exceptions: the system mnemonics the hardware does not have are spelled like none of the ten it has
(spec/60_exceptions.md R185). -/

namespace Sys2Proof.Proofs.Exceptions

open Sys2Proof.Machine

/-- The system mnemonics of R185, with six examples of its "every CSR mnemonic". -/
def systemMnemonics : List String :=
  ["ECALL", "EBREAK", "MRET", "WFI", "FENCE", "FENCE.I", "CSRRW", "CSRRS", "CSRRC", "CSRRWI", "CSRRSI", "CSRRCI"]

theorem mnemonicOf_systemMnemonic : ∀ name ∈ systemMnemonics, mnemonicOf name.toList = none := by decide

theorem systemMnemonic_ne_text {name : String} (h : name ∈ systemMnemonics) (m : Mnemonic) : name.toList ≠ m.text :=
  mnemonicOf_eq_none.1 (mnemonicOf_systemMnemonic name h) m

/-- Settles O17: the first token is no supported mnemonic, so the line is a no-op by O16. -/
theorem systemMnemonicsAreNoOps : Obligations.SystemMnemonicsAreNoOps := by
  intro s name src hname hfirst
  have hunsupported : ∀ m : Mnemonic, (tokens src)[0]? ≠ some m.text := fun m hm =>
    systemMnemonic_ne_text hname m (Option.some.inj (hfirst.symm.trans hm))
  exact (Engine.unknownMnemonicOnlyAdvancesThePc s src hunsupported).2

end Sys2Proof.Proofs.Exceptions
end

section
/-! SUPPORT. The host's operations: which loads they admit, what each leaves in registers and memory, what they keep of
the invariant and of the code slots, and what every reachable state has (spec/70_reset_and_hazards.md R190 to R198). -/

namespace Sys2Proof.Proofs.HostOperations

open Sys2Proof.Machine

/-! ## What the loads admit -/

theorem nonBlankLine_eq_true {line : Text} : nonBlankLine line = true ↔ ∃ c ∈ line, isWhitespace c = false := by
  simp [nonBlankLine]

theorem programInRange_eq_true {lines : List Text} {a : Int} : programInRange lines.length a = true ↔
    InRange a ∧ (lines ≠ [] → InRange (a + 4 * ((lines.length : Int) - 1))) := by
  simp [programInRange, Classical.or_iff_not_imp_left]

/-- The loader's two checks are the admission of R193. -/
theorem programAdmitted_iff {lines : List Text} {a : Int} :
    ProgramAdmitted lines a ↔ lines.all nonBlankLine = true ∧ programInRange lines.length a = true := by
  simp only [ProgramAdmitted, List.all_eq_true, nonBlankLine_eq_true, programInRange_eq_true]

theorem uniqueAddresses_eq_true {es : List (Int × Content)} :
    uniqueAddresses es = true ↔ (es.map Prod.fst).Nodup := by
  induction es with
  | nil => simp [uniqueAddresses]
  | cons e es ih =>
    simp only [uniqueAddresses, Bool.and_eq_true, List.all_eq_true, decide_eq_true_eq, ih, List.map_cons,
      List.nodup_cons, List.mem_map, not_exists, not_and]

/-- The data load's two checks are the admission of R194. -/
theorem entriesAdmitted_iff {es : List (Int × Content)} :
    EntriesAdmitted es ↔ uniqueAddresses es = true ∧ es.all (fun e => decide (InRange e.1)) = true := by
  simp only [EntriesAdmitted, uniqueAddresses_eq_true, List.all_eq_true, decide_eq_true_eq]

theorem entriesAdmitted_perm {es es' : List (Int × Content)} (h : EntriesAdmitted es) (hp : es.Perm es') :
    EntriesAdmitted es' :=
  ⟨(hp.map Prod.fst).nodup_iff.1 h.1, fun e he => h.2 e (hp.mem_iff.2 he)⟩

/-! ## Loading instructions -/

theorem exists_loadInstructions_next {lines : List Text} {a : Int} {s : State} (hr : s.run ≠ .running)
    (h : ProgramAdmitted lines a) : ∃ t, loadInstructions lines a s = .next t := by
  obtain ⟨hlines, hrange⟩ := programAdmitted_iff.1 h
  rw [loadInstructions, if_neg hr, if_neg (Bool.ne_false_iff.2 hlines), if_neg (Bool.ne_false_iff.2 hrange)]
  exact ⟨_, rfl⟩

theorem loadInstructions_refused {lines : List Text} {a : Int} {s : State}
    (h : s.run = .running ∨ ¬ ProgramAdmitted lines a) : ∃ r, loadInstructions lines a s = .refused r := by
  rw [programAdmitted_iff] at h
  unfold loadInstructions
  split_ifs with hr hlines hrange
  · exact ⟨_, rfl⟩
  · exact ⟨_, rfl⟩
  · exact ⟨_, rfl⟩
  · exact h.elim (absurd · hr) (absurd ⟨Bool.ne_false_iff.1 hlines, Bool.ne_false_iff.1 hrange⟩ ·)

/-- What a code slot keeps of an outcome that is not UNSPEC is that outcome. -/
theorem stored_of_outcome (o : EncodeOutcome) (draw : Encoding) :
    (∀ w, o = .word w → o.stored draw = .word w) ∧ (o = .empty → o.stored draw = .empty) :=
  ⟨fun _ h => h ▸ rfl, fun h => h ▸ rfl⟩

/-- Settles O42: the checks are R193's admission, and a loaded line keeps the encoder's outcome for it. -/
theorem loadInstructionsPlacesTheLines : Obligations.LoadInstructionsPlacesTheLines := by
  refine fun lines a s => ⟨fun hr hadm => ?_, loadInstructions_refused⟩
  obtain ⟨t, ht⟩ := exists_loadInstructions_next hr hadm
  obtain ⟨-, -, -, rfl⟩ := loadInstructions_next ht
  exact ⟨_, ht, rfl, fun _ => rfl, rfl, rfl, rfl,
    fun i hi => ⟨_, writeLines_read_line lines s.mem a s.draws i hi, stored_of_outcome _ _⟩,
    writeLines_read_other lines s.mem a s.draws⟩

/-! ## Loading data -/

theorem loadData_of_admitted {es : List (Int × Content)} {s : State} (hr : s.run ≠ .running)
    (h : EntriesAdmitted es) : loadData es s = .next (s.setMem (writeEntries s.mem es)) := by
  obtain ⟨hunique, hrange⟩ := entriesAdmitted_iff.1 h
  rw [loadData, if_neg hr, if_neg (Bool.ne_false_iff.2 hunique), if_neg (Bool.ne_false_iff.2 hrange)]

theorem loadData_refused {es : List (Int × Content)} {s : State} (h : s.run = .running ∨ ¬ EntriesAdmitted es) :
    ∃ r, loadData es s = .refused r := by
  rw [entriesAdmitted_iff] at h
  unfold loadData
  split_ifs with hr hunique hrange
  · exact ⟨_, rfl⟩
  · exact ⟨_, rfl⟩
  · exact ⟨_, rfl⟩
  · exact h.elim (absurd · hr) (absurd ⟨Bool.ne_false_iff.1 hunique, Bool.ne_false_iff.1 hrange⟩ ·)

/-- Settles O43: the checks are R194's admission, and addresses being unique, no entry is written over. -/
theorem loadDataPlacesTheEntries : Obligations.LoadDataPlacesTheEntries := by
  refine fun es s => ⟨fun hr hadm => ?_, loadData_refused⟩
  exact ⟨_, loadData_of_admitted hr hadm, rfl, fun _ => rfl, rfl, ⟨rfl, rfl, rfl⟩,
    fun _ _ he => writeEntries_read_entry es s.mem (uniqueAddresses_eq_true.2 hadm.1) he,
    fun b hb => writeEntries_read_other es s.mem b fun e he hab => hb e.2 (hab ▸ he)⟩

/-- Over a canonical memory, the order of admitted entries does not matter: the two results read alike at an entry's
address and at every other. -/
theorem writeEntries_perm {es es' : List (Int × Content)} {m : Memory} (hm : m.wf) (h : EntriesAdmitted es)
    (hp : es.Perm es') : writeEntries m es = writeEntries m es' := by
  have h' : EntriesAdmitted es' := entriesAdmitted_perm h hp
  refine AddressSpace.wf_ext (writeEntries_wf es hm h.2) (writeEntries_wf es' hm h'.2) fun b => ?_
  by_cases hb : ∃ c, (b, c) ∈ es
  · obtain ⟨c, hc⟩ := hb
    rw [writeEntries_read_entry es m (uniqueAddresses_eq_true.2 h.1) hc,
      writeEntries_read_entry es' m (uniqueAddresses_eq_true.2 h'.1) (hp.mem_iff.1 hc)]
  · have hne : ∀ e ∈ es, e.1 ≠ b := fun e he hab => hb ⟨e.2, hab ▸ he⟩
    rw [writeEntries_read_other es m b hne,
      writeEntries_read_other es' m b fun e he => hne e (hp.mem_iff.2 he)]

/-- Settles O44: a reordering is admitted as well, and both orders write the same canonical memory. -/
theorem dataEntryOrderIsIrrelevant : Obligations.DataEntryOrderIsIrrelevant := by
  intro es es' s t hm hp h
  obtain ⟨hr, hunique, hrange, rfl⟩ := loadData_next h
  have hadm : EntriesAdmitted es := ⟨uniqueAddresses_eq_true.1 hunique, hrange⟩
  rw [loadData_of_admitted hr (entriesAdmitted_perm hadm hp), writeEntries_perm hm hadm hp]

/-! ## The register write, the reset and the observation -/

/-- Settles O45: out of RUNNING it is the register write of R22, and in RUNNING the refusal. -/
theorem setRegisterWritesOneRegister : Obligations.SetRegisterWritesOneRegister :=
  fun i v s => ⟨fun hr => ⟨s.writeReg i v, if_neg hr, fun r => State.readReg_writeReg s i r v,
      State.writeReg_readMem s i v, State.writeReg_pc s i v, State.writeReg_diag s i v, State.writeReg_run s i v,
      State.writeReg_fault s i v, State.writeReg_draws s i v⟩,
    fun hr => ⟨_, if_pos hr⟩⟩

/-- Settles O41: the fields that a reset writes, and the host's call for it in and out of RUNNING. -/
theorem resetLeavesTheStatedValues : Obligations.ResetLeavesTheStatedValues :=
  fun _ => ⟨⟨State.resetAt_readReg _ _, fun _ => rfl, rfl, rfl, rfl⟩, hostOp_reset_of_not_running,
    fun hr => ⟨_, hostOp_reset_of_running hr⟩⟩

theorem observe_registers (s : State) (r : RegIdx) : (observe s).registers[r] = (s.readReg r).toInt := by
  simp [observe, Fin.getElem_fin]

/-- Settles O47: an observed register is a register read, x0 among them, and each other part is a field. -/
theorem observationReadsTheState : Obligations.ObservationReadsTheState :=
  fun s => ⟨observe_registers s, observe_registers s 0, fun _ => rfl, rfl, rfl, rfl, rfl⟩

/-! ## The invariant -/

theorem setMem_inv {s : State} {m : Memory} (hs : s.Inv) (hm : m.wf) : (s.setMem m).Inv where
  memCanonical := hm
  x0Zero := hs.x0Zero
  faultRecorded := hs.faultRecorded
  diagInRange := hs.diagInRange

theorem writeReg_inv {s : State} (hs : s.Inv) (i : RegIdx) (v : Word) : (s.writeReg i v).Inv where
  memCanonical := by simpa using hs.memCanonical
  x0Zero := (State.writeReg_stored_x0 s i v).trans hs.x0Zero
  faultRecorded := by simpa using hs.faultRecorded
  diagInRange := by simpa using hs.diagInRange

theorem loadInstructions_inv {lines : List Text} {a : Int} {s t : State} (hs : s.Inv)
    (h : loadInstructions lines a s = .next t) : t.Inv := by
  obtain ⟨-, -, hrange, rfl⟩ := loadInstructions_next h
  exact
    { memCanonical := writeLines_wf lines hs.memCanonical a s.draws (programInRange_line hrange)
      x0Zero := hs.x0Zero
      faultRecorded := hs.faultRecorded
      diagInRange := hs.diagInRange }

/-- A run starts in HALTED, where no fault record stands. -/
theorem startRun_inv {s : State} (hs : s.Inv) (hr : s.run = .halted) (pc : Word) :
    ((s.setPc pc).setRun .running).Inv where
  memCanonical := hs.memCanonical
  x0Zero := hs.x0Zero
  faultRecorded := by
    have h := hs.faultRecorded
    simpa [hr] using h
  diagInRange := hs.diagInRange

theorem hostOp_inv {op : HostOp} {s t : State} (hs : s.Inv) (h : hostOp op s = .next t) : t.Inv := by
  cases op with
  | reset =>
    obtain ⟨-, rfl⟩ := hostOp_reset_next h
    exact Invariant.resetAt_inv _ _
  | loadInstructions lines a => exact loadInstructions_inv hs h
  | loadData es =>
    obtain ⟨-, -, hrange, rfl⟩ := loadData_next h
    exact setMem_inv hs (writeEntries_wf es hs.memCanonical hrange)
  | setRegister i v =>
    obtain ⟨-, rfl⟩ := setRegister_next h
    exact writeReg_inv hs i v
  | run p =>
    obtain ⟨hr, -, rfl⟩ | ⟨-, rfl⟩ := hostRun_next h
    · exact startRun_inv hs hr _
    · exact hs

/-- Settles O52: the loads write in range, the register write spares x0, and a run starts without a fault record. -/
theorem hostOperationsKeepTheInvariant : Obligations.HostOperationsKeepTheInvariant := fun _ _ _ => hostOp_inv

/-! ## The code slots -/

/-- A code slot found after loading lines is one that stood there, or one of the lines beside its stored outcome. -/
theorem writeLines_read_code {lines : List Text} {m : Memory} {a b : Int} {d : Nat} {enc : Encoding} {src : Text}
    (h : (writeLines m a d lines).read b = some (.code enc src)) :
    m.read b = some (.code enc src) ∨ (src ∈ lines ∧ ∃ draw, enc = (encodeLine src).stored draw) := by
  by_cases hb : ∃ i : Nat, i < lines.length ∧ b = a + 4 * i
  · obtain ⟨i, hi, rfl⟩ := hb
    rw [writeLines_read_line lines m a d i hi] at h
    cases h
    exact .inr ⟨List.getElem_mem hi, _, rfl⟩
  · rw [writeLines_read_other lines m a d b fun i hi he => hb ⟨i, hi, he⟩] at h
    exact .inl h

theorem hostOp_codeEncoded {op : HostOp} {s t : State} (hs : s.CodeEncoded) (h : hostOp op s = .next t) :
    t.CodeEncoded := by
  intro a enc src ha
  obtain hkept | ⟨lines, start, rfl⟩ := AddressSpace.hostOp_readMem_code h ha
  · exact hs a enc src hkept
  · obtain ⟨-, hlines, -, rfl⟩ := loadInstructions_next h
    obtain hkept | ⟨hsrc, draw, rfl⟩ := writeLines_read_code ha
    · exact hs a enc src hkept
    · exact ⟨List.all_eq_true.1 hlines src hsrc, stored_of_outcome _ draw⟩

/-- Settles O56: only loadInstructions makes a code slot, of a line it admits beside the outcome it stores. -/
theorem hostOperationsKeepCodeEncoded : Obligations.HostOperationsKeepCodeEncoded := fun _ _ _ => hostOp_codeEncoded

/-! ## The reachable states -/

theorem resetAt_codeEncoded (pc : Word) (draws : Nat) : (State.resetAt pc draws).CodeEncoded :=
  fun _ _ _ h => by cases h

/-- Settles O53: by induction on how the state was reached, the invariant and the code slots side by side. -/
theorem reachableStatesAreSound : Obligations.ReachableStatesAreSound := by
  intro s h
  induction h with
  | reset pc draws => exact ⟨Invariant.resetAt_inv pc draws, resetAt_codeEncoded pc draws⟩
  | step s t _ hst ih =>
    obtain ⟨hinv, hcode⟩ := ih
    exact ⟨Invariant.step_inv hinv hst, AddressSpace.stepKeepsCodeEncoded s t hcode hst⟩
  | host op s t _ hst ih =>
    obtain ⟨hinv, hcode⟩ := ih
    exact ⟨hostOp_inv hinv hst, hostOp_codeEncoded hcode hst⟩

end Sys2Proof.Proofs.HostOperations
end
